-- ==== Sys2Proof/Word.lean ====
section
/-! DEFINITION. The widths of the core's values (00_scope.md R9): every value is unsigned and is 8, 16 or 32 bits wide. -/

namespace Sys2Proof

/-- 8 bits: table elements, `cursor_i`, table indices, key bytes, output bytes (R9). -/
abbrev Byte := BitVec 8

/-- 16 bits: entropy values, the high half of `cursor_j` (R9). -/
abbrev Half := BitVec 16

/-- 32 bits: `cursor_j`, command words, host register values (R9). -/
abbrev Word := BitVec 32

/-- TABLE_SIZE (R7): the number of elements of the permutation table `T`. -/
abbrev tableSize : Nat := 256

end Sys2Proof
end

