-- ==== Sys2Proof/Config.lean ====
section
/-! DEFINITION. What an implementation of the core fixes (00_scope.md R6) and the one free value: the order in which agents move (20_memory.md R71). -/

namespace Sys2Proof

/-- A FIFO capacity in entries, or the value UNBOUNDED that R6 allows for the output FIFO. -/
inductive FifoDepth where
  | bounded (entries : Nat)
  | unbounded
deriving DecidableEq, Repr

/-- The four implementation parameters of R6, every one OPEN in the spec (D5, D9, D25, D40).
They are an argument of the model: the machine's state carries them and no step changes them,
so a statement about every state is a statement about every value of them (log entry 5). -/
structure Params where
  /-- KEY_BUF_BYTES: size in bytes of the key buffer K. -/
  keyBufBytes : Nat
  /-- OUT_FIFO_DEPTH: capacity in bytes of the output FIFO. -/
  outFifoDepth : FifoDepth
  /-- CMD_FIFO_DEPTH: capacity in words of the CMD FIFO. -/
  cmdFifoDepth : Nat
  /-- HOST_BASE: base address of the host register window on the platform bus. -/
  hostBase : Nat
deriving DecidableEq, Repr

/-- The constraint column of R6. -/
abbrev Params.wf (p : Params) : Prop :=
  p.keyBufBytes % 4 = 0 ∧ 260 ≤ p.keyBufBytes ∧ p.keyBufBytes ≤ 2 ^ 28 - 1 ∧
    p.outFifoDepth ≠ .bounded 0 ∧ 1 ≤ p.cmdFifoDepth

/-- Who moves next (R71): one of the agents of R5, or a power-on reset (R220).
`host k` attempts the k-th of the accesses the host side presents (log entry 3). -/
inductive Turn where
  | generator
  | entropy
  | host (k : Nat)
  | por
deriving DecidableEq, Repr, Inhabited

/-- FREE VALUE (log entry 1): who moves next where the state's own list of turns is used up.
R71: "At each point any one enabled step of any agent, or a POR, may happen next. The model leaves
the choice open". It has no body, so nothing can be proved of what it chooses. -/
opaque Config.freeTurn : Nat → Turn

end Sys2Proof
end

