-- ==== Sys2Proof/Syntax.lean ====
section
/-! DEFINITION. The RC4OK core command set, version 1 (00_scope.md R1): one constructor per row of the opcode table, and the assembly form of a command (30_encoding.md R100). -/

namespace Sys2Proof

/-- The two command ports (00_scope.md R5), each served by one agent: CMD by the generator agent,
ENT by the entropy agent. -/
inductive Port where
  | cmd
  | ent
deriving DecidableEq, Repr

/-- The commands of R91. An operand's type is the width of its field (R92 to R94), so every term is
encodable. -/
inductive Instr where
  /-- `INIT L`, format K (R92, R110). -/
  | init (L : BitVec 28)
  /-- `RESET L`, format K (R92, R180). -/
  | reset (L : BitVec 28)
  /-- `GENERATE n`, format N (R93, R140). -/
  | generate (n : BitVec 28)
  /-- `ADD_ENTROPY e`, format E (R94, R160). -/
  | addEntropy (e : Half)
deriving DecidableEq, Repr

/-- The mnemonics of R91. -/
inductive Mnemonic where
  | INIT
  | RESET
  | GENERATE
  | ADD_ENTROPY
deriving DecidableEq, Repr

/-- One command in assembly form (R100): a port prefix, a mnemonic and an unsigned number. The number
is not bounded here: whether it fits its field is what `AsmCommand.wellFormed` checks. -/
structure AsmCommand where
  port : Port
  mnemonic : Mnemonic
  operand : Nat
deriving DecidableEq, Repr

end Sys2Proof
end

