-- ==== Sys2Proof/WellFormed.lean ====
section
/-! DEFINITION. Which assembly commands are well formed (30_encoding.md R100): the operand fits its field. A term of `Instr` carries its operand at the field's width, so every one of them is well formed by its type. -/

namespace Sys2Proof

/-- Width in bits of the operand field of each command (R92, R93, R94). -/
def Mnemonic.operandWidth : Mnemonic → Nat
  | .INIT => 28
  | .RESET => 28
  | .GENERATE => 28
  | .ADD_ENTROPY => 16

/-- R100: "The assembler refuses an operand that does not fit its field: L or n of 2^28 or more, or e
of 2^16 or more." -/
def AsmCommand.wellFormed (c : AsmCommand) : Bool :=
  decide (c.operand < 2 ^ c.mnemonic.operandWidth)

end Sys2Proof
end

