-- ==== Sys2Proof/Decode.lean ====
section
/-! DEFINITION. Decoding of a 32-bit command word, total on every word (30_encoding.md R90 to R99), the encoder, and the assembler (R100). -/

namespace Sys2Proof

/-- What R99 reads from a word: a command, or one of the two forms that are none. -/
inductive Decoded where
  | instr (i : Instr)
  /-- OP = 0x4 with RES ≠ 0 (R97). -/
  | reserved
  /-- OP in {0x0, 0x5, ..., 0xF} (R96). -/
  | illegal
deriving DecidableEq, Repr

/-- `OP` = word[31:28] (R90). -/
def opField (w : Word) : BitVec 4 := w.extractLsb' 28 4

/-- `ARG` = word[27:0] (R90); `L` of format K (R92) and `n` of format N (R93). -/
def argField (w : Word) : BitVec 28 := w.extractLsb' 0 28

/-- `RES` = word[27:16] of format E (R94). -/
def resField (w : Word) : BitVec 12 := w.extractLsb' 16 12

/-- `e` = word[15:0] of format E (R94). -/
def entropyField (w : Word) : Half := w.extractLsb' 0 16

/-- `decode_fields` of R99. -/
def decode (w : Word) : Decoded :=
  match (opField w).toNat with
  | 1 => .instr (.init (argField w))
  | 2 => .instr (.reset (argField w))
  | 3 => .instr (.generate (argField w))
  | 4 => if resField w ≠ 0 then .reserved else .instr (.addEntropy (entropyField w))
  | _ => .illegal

/-- The operation code of each command (R91). -/
def opcode : Instr → BitVec 4
  | .init _ => 0x1
  | .reset _ => 0x2
  | .generate _ => 0x3
  | .addEntropy _ => 0x4

/-- The operand in the 28 bits of `ARG`; in format E the bits `RES` are 0 (R92, R93, R94). -/
def argument : Instr → BitVec 28
  | .init L => L
  | .reset L => L
  | .generate n => n
  | .addEntropy e => (0 : BitVec 12) ++ e

/-- The word of a command: `OP` in bits [31:28], `ARG` in bits [27:0] (R90). -/
def encode (i : Instr) : Word := opcode i ++ argument i

/-- The operation code of a mnemonic (R91). -/
def Mnemonic.opcode : Mnemonic → Nat
  | .INIT => 1
  | .RESET => 2
  | .GENERATE => 3
  | .ADD_ENTROPY => 4

/-- The assembler of R100: `word = (OP << 28) | operand`, and no word where the operand does not fit.
The word goes to the port that the prefix names. -/
def assemble (c : AsmCommand) : Option (Port × Word) :=
  if c.wellFormed then
    some (c.port, (BitVec.ofNat 32 c.mnemonic.opcode <<< 28) ||| BitVec.ofNat 32 c.operand)
  else none

/-- The 32-bit word whose low `nbits` bits are those of `w` and whose other bits are 0. -/
def tableWord (nbits w : Nat) : Word := BitVec.ofNat 32 (w % 2 ^ nbits)

/-- What `decode` reads from a word given as the opcode table numbers its bits. -/
def decodeTableWord (nbits w : Nat) : Option Instr :=
  match decode (tableWord nbits w) with
  | .instr i => some i
  | .reserved => none
  | .illegal => none

end Sys2Proof
end

