-- ==== Sys2Proof/Machine/Constants.lean ====
section
/-! DEFINITION. The algorithm constants of 00_scope.md R7, each named once and used by that name everywhere, and the register offsets of 20_memory.md R54. (TABLE_SIZE is `tableSize` in Word.lean, since it is part of a type.) -/

namespace Sys2Proof.Machine

/-- FILL_STRIDE (R7). -/
def fillStride : Byte := 233

/-- KSA_MIN_ROUNDS (R7). -/
def ksaMinRounds : Nat := 256

/-- KSA_XOR (R7). -/
def ksaXor : Byte := 0x55

/-- DISCARD_LEN (R7). -/
def discardLen : Nat := 256

/-- PRGA_STRIDE (R7). -/
def prgaStride : Byte := 11

/-- CJ_ROT (R7). -/
def cjRot : Nat := 1

/-- HI_ROT (R7). -/
def hiRot : Nat := 1

/-- Offset of STATUS (R54). -/
def statusOffset : Nat := 0x000

/-- Offset of FAULT_CMD (R54). -/
def faultCmdOffset : Nat := 0x004

/-- Offset of CMD (R54). -/
def cmdOffset : Nat := 0x008

/-- Offset of ENT (R54). -/
def entOffset : Nat := 0x00C

/-- Offset of OUT_DATA (R54). -/
def outDataOffset : Nat := 0x010

/-- Offset of OUT_COUNT (R54). -/
def outCountOffset : Nat := 0x014

/-- First offset of the KEY window (R54). -/
def keyWindowOffset : Nat := 0x100

end Sys2Proof.Machine
end

