-- ==== Sys2Proof/Machine/State.lean ====
section
/-! DEFINITION. The state of the core, all of it plain data (10_state.md R20 to R41), the state after power-on reset, and the reasons a step of the model can stop. -/

namespace Sys2Proof.Machine

/-- The permutation table `T` (R20): 256 elements of 8 bits. -/
abbrev Table := Vector Byte tableSize

/-- A byte-addressed memory: (address, byte) pairs with strictly rising addresses. It holds the key
buffer K (R33), the only byte-addressed space of the core (R50). -/
abbrev Memory := List Host.Cell

/-- The source's one entity, the generator state (10_state.md section 1). -/
structure Generator where
  /-- `T` (R20, R21). -/
  table : Table
  /-- `cursor_i` (R22). -/
  cursorI : Byte
  /-- `cursor_j` (R23, R24): `H` = [31:16], `J` = [7:0]. -/
  cursorJ : Word
deriving DecidableEq, Repr

/-- `gen_phase` (R34). -/
inductive GenPhase where
  /-- No command in progress. -/
  | idle
  /-- Inside a GENERATE, between PRGA steps, `rem` bytes still to generate. -/
  | gen (rem : BitVec 28)
  /-- Between the load step and the store step of one PRGA step (R141). -/
  | prgaLoaded (rem : BitVec 28) (a : Byte) (seen : Word)
  /-- Between the load step and the store step of a CMD-port ADD_ENTROPY (R163). -/
  | entLoaded (e : Half) (seen : Word)
deriving DecidableEq, Repr

/-- `ent_phase` (R35). -/
inductive EntPhase where
  | idle
  /-- Between the load step and the store step of an ENT-port ADD_ENTROPY (R161, R162). -/
  | loaded (e : Half) (seen : Word) (word : Word)
deriving DecidableEq, Repr

/-- The causes of a hardware fault (R191); taking one is a next state (R194). -/
inductive Cause where
  | illegalOpcode
  | portViolation
  | reservedNonzero
  | notInitialized
  | emptyKey
  | keyTooLong
  | resetOverlap
deriving DecidableEq, Repr

/-- What a host access does (R54). -/
inductive HostOp where
  | read
  | write (data : Word)
deriving DecidableEq, Repr

/-- One access of the host (R74): its address on the platform bus, its width in bits, and what it
does. R64 defines only the aligned accesses of width 32. -/
structure HostAccess where
  addr : Nat
  width : Nat
  op : HostOp
deriving DecidableEq, Repr

/-- A busy bit of STATUS that the host waits for (R233). -/
inductive BusyBit where
  /-- STATUS.GEN_BUSY. -/
  | gen
  /-- STATUS.ENT_BUSY. -/
  | ent
deriving DecidableEq, Repr

/-- What the host side has to do: an access, or the wait of R233, R223 and R226, in which the host
reads STATUS again and again until a busy bit is 0. -/
inductive HostAction where
  | access (a : HostAccess)
  | wait (b : BusyBit)
deriving DecidableEq, Repr

/-- The core (R20 to R35), its parameters (R6), and the outside world as plain data.
INVENTORY.md lists every field with its rule and its reset value. -/
structure State where
  /-- The implementation parameters of R6; no step changes them. -/
  params : Params
  /-- `T`, `cursor_i`, `cursor_j` (R20 to R24). -/
  gen : Generator
  /-- STATUS.READY (R27). -/
  ready : Bool
  /-- STATUS.FAULT (R28). -/
  fault : Bool
  /-- STATUS.CAUSE (R28, R191). -/
  cause : BitVec 4
  /-- STATUS.FAULT_PORT (R28). -/
  faultPort : Port
  /-- FAULT_CMD (R29). -/
  faultCmd : Word
  /-- The output FIFO, head first (R30). -/
  outFifo : List Byte
  /-- The CMD FIFO, head first (R31). -/
  cmdFifo : List Word
  /-- The ENT register; `ent_full` is whether it holds a word (R32). -/
  entReg : Option Word
  /-- The key buffer K (R33). -/
  key : Memory
  /-- `gen_phase` (R34). -/
  genPhase : GenPhase
  /-- `ent_phase` (R35). -/
  entPhase : EntPhase
  /-- The model's own: the port whose agent is taking a command word (log entry 8). -/
  port : Port
  /-- The model's own: who moves at the next steps (log entry 1). -/
  turns : List Turn
  /-- The model's own: how many free choices of who moves were used (log entry 1). -/
  turnCount : Nat
  /-- The model's own: the accesses and waits the host side presents, oldest first (log entry 3). -/
  hostQueue : List HostAction
  /-- The model's own: what the host's completed reads returned, oldest first (log entry 4). -/
  hostReads : List Word
deriving DecidableEq, Repr

/-- Where a step of the model ends without a next state. The hardware faults of R191 are not here:
they are next states. -/
inductive Fault where
  /-- Raised by INIT and RESET when they read a key byte that was not written since power-on reset.
  R41: "A model gives the read no value and ends the run in the model fault `UNWRITTEN_KEY_BYTE`,
  which is not a hardware cause code." SAFE: the hardware goes on, the model stops. -/
  | unwrittenKeyByte
deriving DecidableEq, Repr

/-- Where the model gives no meaning. -/
inductive Refusal where
  /-- Raised by an arm of `exec` that has no meaning. SAFE: the model stops. No arm raises it. -/
  | notModelled (mnemonic : String)
  /-- Raised by a host access that is not 32 bits wide or whose offset is not a multiple of 4. R64:
  "A model refuses it by name, as `HOST_ACCESS_SHAPE`". SAFE: the model stops. -/
  | hostAccessShape
  /-- Raised by a host access to an address below HOST_BASE, which is not in the core's window (R54,
  R69); what stands there is the platform's (log entry 11). SAFE: the model stops. -/
  | outsideHostWindow
deriving DecidableEq, Repr

/-- The values the model names where R40 gives none: `T` and both cursors are zero (log entry 6,
DESIGN CHOICE, UNSAFE). R41: no rule reads them while the core is fault-free. -/
def Generator.unspecified : Generator where
  table := Vector.replicate tableSize 0
  cursorI := 0
  cursorJ := 0

/-- The parameters that `State.reset` carries: one legal choice of R6's OPEN values (log entry 5,
DESIGN CHOICE). Only the last clause of ResetMeetsInvariant rests on them. -/
def paramsAtReset : Params where
  keyBufBytes := 1024
  outFifoDepth := .unbounded
  cmdFifoDepth := 16
  hostBase := 0

/-- The state after POR (R40), with no host access presented and no turn chosen. -/
def State.reset : State where
  params := paramsAtReset
  gen := Generator.unspecified
  ready := false
  fault := false
  cause := 0
  faultPort := .cmd
  faultCmd := 0
  outFifo := []
  cmdFifo := []
  entReg := none
  key := []
  genPhase := .idle
  entPhase := .idle
  port := .cmd
  turns := []
  turnCount := 0
  hostQueue := []
  hostReads := []

end Sys2Proof.Machine
end

