-- ==== Sys2Proof/Machine/Ops.lean ====
section
/-! DEFINITION. The named operations over bits, the key memory, the table, `cursor_j`, the output FIFO (00_scope.md R10 to R13), taking a fault (60_exceptions.md R194) and power-on reset (70_reset_and_hazards.md R220). -/

namespace Sys2Proof.Machine

/-- `rotl_N(v, s)` (R10). -/
def rotl {n : Nat} (v : BitVec n) (s : Nat) : BitVec n := (v <<< s) ||| (v >>> (n - s))

/-- `{h, l}` for two 16-bit halves (R11). -/
def concat (h l : Half) : Word := h ++ l

/-- `x[31:16]` (R8). -/
def highHalf (x : Word) : Half := x.extractLsb' 16 16

/-- `x[15:0]` (R8). -/
def lowHalf (x : Word) : Half := x.extractLsb' 0 16

/-- `x[7:0]` (R8). -/
def lowByte (x : Word) : Byte := x.extractLsb' 0 8

/-! The key memory. -/

/-- What an address that is not listed reads as: no value (R40, R41; log entry 7). -/
def Memory.unlisted : Option Byte := none

/-- The byte at an address, where the memory holds a value for it. -/
def Memory.read : Memory → Nat → Option Byte
  | [], _ => Memory.unlisted
  | (a, v) :: m, x => if a = x then some v else Memory.read m x

/-- The memory with byte `v` at address `x`, in the canonical form. -/
def Memory.write : Memory → Nat → Byte → Memory
  | [], x, v => [(x, v)]
  | (a, u) :: m, x, v =>
    if x < a then (x, v) :: (a, u) :: m
    else if x = a then (x, v) :: m
    else (a, u) :: Memory.write m x v

/-- The canonical form: addresses strictly rise. (An unlisted address has no value, so no entry can
repeat what an unlisted address reads as.) -/
abbrev Memory.wf (m : Memory) : Prop := m.Pairwise (fun c d => c.1 < d.1)

/-- `K[4m] <- w[7:0]; K[4m+1] <- w[15:8]; K[4m+2] <- w[23:16]; K[4m+3] <- w[31:24]` (R61). -/
def Memory.writeWord (k : Memory) (m : Nat) (w : Word) : Memory :=
  (((k.write (4 * m + 0) (w.extractLsb' 0 8)).write (4 * m + 1) (w.extractLsb' 8 8)).write
    (4 * m + 2) (w.extractLsb' 16 8)).write (4 * m + 3) (w.extractLsb' 24 8)

/-! The table. -/

/-- `T[x]` (R13); an 8-bit index is always in range (R51). -/
def Table.read (t : Table) (x : Byte) : Byte := t[x.toNat]'x.isLt

/-- `T[x] <- v` (R13). -/
def Table.write (t : Table) (x v : Byte) : Table := t.set x.toNat v x.isLt

/-- `Swap(T, x, y)` (R12): `t1 <- T[x]; t2 <- T[y]; T[x] <- t2; T[y] <- t1`. -/
def Table.swap (t : Table) (x y : Byte) : Table :=
  let t1 := t.read x
  let t2 := t.read y
  (t.write x t2).write y t1

/-- R21: "each value occurs exactly once". -/
abbrev Table.isPermutation (t : Table) : Prop := ∀ v : Byte, t.toList.count v = 1

/-! `cursor_j`, the output FIFO. -/

/-- `AtomicLoad(cursor_j)` (R13, R66). -/
def atomicLoad (s : State) : Word := s.gen.cursorJ

/-- `AtomicStore(cursor_j, v)` (R13, R66). -/
def atomicStore (v : Word) (s : State) : State := { s with gen := { s.gen with cursorJ := v } }

/-- `Emit(b)` (R13, R30): append at the tail of the output FIFO. -/
def emit (b : Byte) (s : State) : State := { s with outFifo := s.outFifo ++ [b] }

/-- Whether a FIFO of this capacity that holds `count` entries has room for one more. -/
def FifoDepth.hasRoom : FifoDepth → Nat → Bool
  | .bounded n, count => decide (count < n)
  | .unbounded, _ => true

/-- The model's record of the port whose agent takes a command word (log entry 8). -/
def onPort (p : Port) (s : State) : State := { s with port := p }

/-! Taking a fault. There is no return from one (R198): `powerOnReset` alone clears it. -/

/-- The cause codes of R191. -/
def Cause.code : Cause → BitVec 4
  | .illegalOpcode => 1
  | .portViolation => 2
  | .reservedNonzero => 3
  | .notInitialized => 4
  | .emptyKey => 5
  | .keyTooLong => 6
  | .resetOverlap => 7

/-- `Fault(cause, port, w)` of R194: the fault fields and FAULT_CMD are written, READY and everything
else keep their values (R195). The word was consumed by the step that took it. -/
def raiseFault (c : Cause) (p : Port) (w : Word) (s : State) : State :=
  { s with fault := true, cause := c.code, faultPort := p, faultCmd := w }

/-- POR (R220): every piece of the core's state takes its value of R40. The parameters and the outside
world (whose turn comes next, the accesses the host presents, what it has read) are not the core's
and stay (log entry 10); R220: "after POR it proceeds by its rule against the new state". -/
def powerOnReset (s : State) : State :=
  { State.reset with
    params := s.params
    turns := s.turns
    turnCount := s.turnCount
    hostQueue := s.hostQueue
    hostReads := s.hostReads }

end Sys2Proof.Machine
end

