-- ==== Sys2Proof/Machine/Flags.lean ====
section
/-! DEFINITION. The STATUS register (10_state.md R26) and the `fault_o` output (60_exceptions.md R200). The core has no arithmetic flags (R38). -/

namespace Sys2Proof.Machine

/-- The FAULT_PORT bit of a port (R26): 0 = CMD, 1 = ENT. -/
def portBit : Port → BitVec 1
  | .cmd => 0
  | .ent => 1

/-- Whether an ENT-port ADD_ENTROPY is between its load and its store (R35). -/
def EntPhase.isLoaded : EntPhase → Bool
  | .idle => false
  | .loaded _ _ _ => true

/-- Whether the generator agent has no command in progress (R34). -/
def GenPhase.isIdle : GenPhase → Bool
  | .idle => true
  | .gen _ => false
  | .prgaLoaded _ _ _ => false
  | .entLoaded _ _ => false

/-- ENT_BUSY (R26): "1 while `ent_full` = 1 or `ent_phase` = `LOADED`". -/
def entBusy (s : State) : Bool := s.entReg.isSome || s.entPhase.isLoaded

/-- GEN_BUSY (R26): "1 while the CMD FIFO holds a word or `gen_phase` != `IDLE`". -/
def genBusy (s : State) : Bool := !s.cmdFifo.isEmpty || !s.genPhase.isIdle

/-- The busy bit that the host waits for. -/
def busyBit : BusyBit → State → Bool
  | .gen, s => genBusy s
  | .ent, s => entBusy s

/-- STATUS as the host reads it (R26): bits [31:9] 0, FAULT_PORT [8], CAUSE [7:4], GEN_BUSY [3],
ENT_BUSY [2], FAULT [1], READY [0]. -/
def statusWord (s : State) : Word :=
  (0 : BitVec 23) ++ portBit s.faultPort ++ s.cause ++ BitVec.ofBool (genBusy s) ++
    BitVec.ofBool (entBusy s) ++ BitVec.ofBool s.fault ++ BitVec.ofBool s.ready

/-- The level output `fault_o` (R200): "equal to STATUS.FAULT at every point". -/
def faultO (s : State) : Bool := s.fault

end Sys2Proof.Machine
end

