-- ==== Sys2Proof/Machine/Operands.lean ====
section
/-! DEFINITION. The operand forms of the commands (30_encoding.md R92 to R94): the key length and the key bytes of format K, the byte count of format N, the entropy value of format E. -/

namespace Sys2Proof.Machine

/-- Format K: `L`, the key length in bytes, an unsigned 28-bit value (R92). -/
def keyLength (L : BitVec 28) : Nat := L.toNat

/-- Format K: the key byte of round `r` of KSA_MIX, `K[r mod L]` (R114, R121), where it has a value. -/
def keyByte (key : Memory) (len r : Nat) : Option Byte := key.read (r % len)

/-- Format N: whether GENERATE has a byte to generate (R93, R145). -/
def isZeroCount (n : BitVec 28) : Bool := n == 0

/-- Format E: the `cursor_j` that an ADD_ENTROPY of `e` stores after it loaded `seen` (R160):
`{ rotl_16(seen[31:16], HI_ROT) +_16 e, seen[15:0] }`. -/
def newCursorJ (seen : Word) (e : Half) : Word :=
  concat (rotl (highHalf seen) hiRot + e) (lowHalf seen)

end Sys2Proof.Machine
end

