-- ==== Sys2Proof/Machine/Checks.lean ====
section
/-! DEFINITION. The checks of a decoded command before it executes (60_exceptions.md R192, R193). Checks 1 and 3 are about words that are no command; Machine/Agents.lean makes them when a word is taken. -/

namespace Sys2Proof.Machine

/-- Check 2, PORT_VIOLATION: INIT, RESET or GENERATE on the ENT port. -/
def portFault (s : State) : Option Cause :=
  if s.port = .ent then some .portViolation else none

/-- Check 4, NOT_INITIALIZED: READY = 0 at the step that takes the word. -/
def notReadyFault (s : State) : Option Cause :=
  if s.ready = false then some .notInitialized else none

/-- Check 5, EMPTY_KEY: L = 0. -/
def emptyKeyFault (L : BitVec 28) : Option Cause :=
  if keyLength L = 0 then some .emptyKey else none

/-- Check 6, KEY_TOO_LONG: L > KEY_BUF_BYTES. -/
def keyTooLongFault (L : BitVec 28) (s : State) : Option Cause :=
  if s.params.keyBufBytes < keyLength L then some .keyTooLong else none

/-- Check 7, RESET_OVERLAP: `ent_phase` is LOADED. -/
def overlapFault (s : State) : Option Cause :=
  if s.entPhase.isLoaded then some .resetOverlap else none

/-- Runs `body` where no check applies; otherwise takes the fault (R194), whose FAULT_CMD is the
word of the command (log entry 12). -/
def checked (i : Instr) (found : Option Cause) (s : State)
    (body : State → Host.Outcome State Fault Refusal) : Host.Outcome State Fault Refusal :=
  match found with
  | some c => .next (raiseFault c s.port (encode i) s)
  | none => body s

end Sys2Proof.Machine
end

