-- ==== Sys2Proof/Machine/Entropy.lean ====
section
/-! DEFINITION. ADD_ENTROPY (42_entropy.md R160): its load step on either port and its two store steps. -/

namespace Sys2Proof.Machine

/-- The load step of ADD_ENTROPY e (R160): on the CMD port `gen_phase <- ENT_LOADED(e, seen)` (R163),
on the ENT port `ent_phase <- LOADED(e, seen, w)` (R161), with `seen` the `cursor_j` loaded. -/
def loadEntropy (e : Half) (s : State) : Host.Outcome State Fault Refusal :=
  match s.port with
  | .cmd => .next { s with genPhase := .entLoaded e (atomicLoad s) }
  | .ent => .next { s with entPhase := .loaded e (atomicLoad s) (encode (.addEntropy e)) }

/-- ADD_ENTROPY e (R160), accepted on both ports, which may fault NOT_INITIALIZED. -/
def execAddEntropy (e : Half) (s : State) : Host.Outcome State Fault Refusal :=
  checked (.addEntropy e) (notReadyFault s) s (loadEntropy e)

/-- `G_ENT_STORE` (R163) in phase ENT_LOADED(e, seen). -/
def cmdEntropyStore (e : Half) (seen : Word) (s : State) : State :=
  { atomicStore (newCursorJ seen e) s with genPhase := .idle }

/-- `E_STORE` (R162) in phase LOADED(e, seen, w). All 32 bits are stored; bits [15:0] are those of
`seen`, not of the current `cursor_j`. -/
def entEntropyStore (e : Half) (seen : Word) (s : State) : State :=
  { atomicStore (newCursorJ seen e) s with entPhase := .idle }

end Sys2Proof.Machine
end

