-- ==== Sys2Proof/Machine/Prga.lean ====
section
/-! DEFINITION. One PRGA step on the generator state (41_prga_generate.md R141, R142), in its load part and its store part; DISCARD (40_ksa_init.md R117). -/

namespace Sys2Proof.Machine

/-- Step 1 of R141: `cursor_i <- cursor_i +_8 PRGA_STRIDE`. -/
def Generator.advance (g : Generator) : Generator := { g with cursorI := g.cursorI + prgaStride }

/-- Step 2 of R141, read with the already advanced cursor: `a <- T[cursor_i]`. -/
def Generator.tableByte (g : Generator) : Byte := g.table.read g.cursorI

/-- Step 3 of R142: `v <- rotl_32(seen, CJ_ROT) +_32 zext_32(a)`. -/
def prgaCursorJ (seen : Word) (a : Byte) : Word := rotl seen cjRot + a.setWidth 32

/-- Steps 3 to 6 of R142: `cursor_j <- v; j0 <- v[7:0]; Swap(T, cursor_i, j0)`. -/
def Generator.store (a : Byte) (seen : Word) (g : Generator) : Generator :=
  let v := prgaCursorJ seen a
  { table := g.table.swap g.cursorI (lowByte v), cursorI := g.cursorI, cursorJ := v }

/-- Steps 5, 7 and 8 of R142: `b <- T[j0]` before the swap, `u <- a +_8 b`, and `T[u]` after the
swap. -/
def Generator.outputByte (a : Byte) (seen : Word) (g : Generator) : Byte :=
  let b := g.table.read (lowByte (prgaCursorJ seen a))
  (g.store a seen).table.read (a + b)

/-- One repetition of DISCARD (R117): a PRGA step whose byte is not emitted. -/
def Generator.discardStep (g : Generator) : Generator :=
  g.advance.store g.advance.tableByte g.cursorJ

/-- `n` discarded PRGA steps. -/
def Generator.discardSteps : Nat → Generator → Generator
  | 0, g => g
  | n + 1, g => Generator.discardSteps n g.discardStep

/-- DISCARD (R117). -/
def Generator.discard (g : Generator) : Generator := g.discardSteps discardLen

end Sys2Proof.Machine
end

