-- ==== Sys2Proof/Machine/Generate.lean ====
section
/-! DEFINITION. GENERATE (41_prga_generate.md R140): its `G_TAKE` and the two steps of the generator agent that produce each byte. -/

namespace Sys2Proof.Machine

/-- `G_TAKE` of GENERATE n (R140): n = 0 does nothing (R145), otherwise `gen_phase <- GEN(n)`. -/
def startGenerate (n : BitVec 28) (s : State) : Host.Outcome State Fault Refusal :=
  if isZeroCount n then .next s else .next { s with genPhase := .gen n }

/-- GENERATE n (R140), which may fault PORT_VIOLATION or NOT_INITIALIZED. -/
def execGenerate (n : BitVec 28) (s : State) : Host.Outcome State Fault Refusal :=
  checked (.generate n) (portFault s <|> notReadyFault s) s (startGenerate n)

/-- `G_PRGA_LOAD` (R141) in phase GEN(rem). -/
def prgaLoad (rem : BitVec 28) (s : State) : State :=
  { s with
    gen := s.gen.advance
    genPhase := .prgaLoaded rem s.gen.advance.tableByte (atomicLoad s) }

/-- The phase after a PRGA step (R142): IDLE where it was the last one. -/
def phaseAfterByte (rem : BitVec 28) : GenPhase :=
  if rem = 1 then .idle else .gen (rem - 1)

/-- `G_PRGA_STORE` (R142) in phase PRGA_LOADED(rem, a, seen). -/
def prgaStore (rem : BitVec 28) (a : Byte) (seen : Word) (s : State) : State :=
  emit (s.gen.outputByte a seen)
    { s with gen := s.gen.store a seen, genPhase := phaseAfterByte rem }

end Sys2Proof.Machine
end

