-- ==== Sys2Proof/Machine/Ksa.lean ====
section
/-! DEFINITION. The key-scheduling procedure (40_ksa_init.md R112 to R117), shared by INIT and RESET. -/

namespace Sys2Proof.Machine

/-- The loop of KSA_FILL: `acc <- acc +_8 FILL_STRIDE; T[k] <- acc`, for `n` elements. -/
def fillFrom : Nat → Byte → List Byte
  | 0, _ => []
  | n + 1, acc => (acc + fillStride) :: fillFrom n (acc + fillStride)

theorem fillFrom_length (n : Nat) (acc : Byte) : (fillFrom n acc).length = n := by
  induction n generalizing acc with
  | zero => rfl
  | succ n ih => simp [fillFrom, ih]

/-- KSA_FILL (R112): the accumulator starts at 0. -/
def ksaFill : Table := ⟨(fillFrom tableSize 0).toArray, by simp [fillFrom_length]⟩

/-- The number of rounds of KSA_MIX (R113). -/
def ksaRounds (len : Nat) : Nat := if ksaMinRounds < len then len else ksaMinRounds

/-- What KSA_MIX works on: the table and its two 8-bit indices (R114). -/
structure MixState where
  table : Table
  i : Byte
  j : Byte
deriving DecidableEq, Repr

/-- One round of KSA_MIX with key byte `k` (R114): `j <- j +_8 T[i] +_8 k; Swap(T, i, j); i <- i +_8 1`. -/
def MixState.round (k : Byte) (m : MixState) : MixState :=
  let j := m.j + m.table.read m.i + k
  { table := m.table.swap m.i j, i := m.i + 1, j := j }

/-- `n` rounds of KSA_MIX from round `r` on; none where a round reads a key byte that has no value
(R41). -/
def mixRounds (key : Memory) (len : Nat) : Nat → Nat → MixState → Option MixState
  | 0, _, m => some m
  | n + 1, r, m =>
    match keyByte key len r with
    | some k => mixRounds key len n (r + 1) (m.round k)
    | none => none

/-- KSA_MIX (R113, R114) from the KSA_FILL table, with i = 0 and j = 0. -/
def ksaMix (key : Memory) (len : Nat) : Option MixState :=
  mixRounds key len (ksaRounds len) 0 { table := ksaFill, i := 0, j := 0 }

/-- KSA_FINISH (R116): `cursor_i <- T[j XOR KSA_XOR]; cursor_j <- 0`. -/
def ksaFinish (m : MixState) : Generator where
  table := m.table
  cursorI := m.table.read (m.j ^^^ ksaXor)
  cursorJ := 0

/-- The generator state that INIT and RESET build from K[0] to K[len - 1] (R110, R180): none where one
of those bytes has no value. -/
def keyedGenerator (key : Memory) (len : Nat) : Option Generator :=
  (ksaMix key len).map (fun m => (ksaFinish m).discard)

/-- The body of INIT and RESET (R110, R180), in one step: the new generator state, then
`STATUS.READY <- 1` (R119). It changes no FIFO, register or key byte (R122). -/
def rekey (L : BitVec 28) (s : State) : Host.Outcome State Fault Refusal :=
  match keyedGenerator s.key (keyLength L) with
  | some g => .next { s with gen := g, ready := true }
  | none => .fault .unwrittenKeyByte

end Sys2Proof.Machine
end

