-- ==== Sys2Proof/Machine/Init.lean ====
section
/-! DEFINITION. INIT (40_ksa_init.md R110). -/

namespace Sys2Proof.Machine

/-- INIT L (R110): the checks of R193 in order, then the KSA and DISCARD in this one step. It is legal
whether READY is 0 or 1. -/
def execInit (L : BitVec 28) (s : State) : Host.Outcome State Fault Refusal :=
  checked (.init L)
    (portFault s <|> emptyKeyFault L <|> keyTooLongFault L s <|> overlapFault s) s (rekey L)

end Sys2Proof.Machine
end

