-- ==== Sys2Proof/Machine/Reset.lean ====
section
/-! DEFINITION. RESET, the re-keying command (43_reset.md R180); the power-on reset is `powerOnReset`. -/

namespace Sys2Proof.Machine

/-- RESET L (R180): as INIT, but it needs an initialised core (R183). -/
def execReset (L : BitVec 28) (s : State) : Host.Outcome State Fault Refusal :=
  checked (.reset L)
    (portFault s <|> notReadyFault s <|> emptyKeyFault L <|> keyTooLongFault L s <|> overlapFault s)
    s (rekey L)

end Sys2Proof.Machine
end

