-- ==== Sys2Proof/Machine/Dispatch.lean ====
section
/-! DEFINITION. The step that takes a decoded command: one arm per command of 30_encoding.md R91. -/

namespace Sys2Proof.Machine

def exec (i : Instr) (s : State) : Host.Outcome State Fault Refusal :=
  match i with
  | .init L => Sys2Proof.Machine.execInit L s
  | .reset L => Sys2Proof.Machine.execReset L s
  | .generate n => Sys2Proof.Machine.execGenerate n s
  | .addEntropy e => Sys2Proof.Machine.execAddEntropy e s

end Sys2Proof.Machine
end

