-- ==== Sys2Proof/Machine/HostPort.lean ====
section
/-! DEFINITION. The host register window (20_memory.md R54 to R64): which register an access reaches, and what reading and writing it does. -/

namespace Sys2Proof.Machine

/-- The registers of the window (R54). `key m` is the m-th word of the KEY window. -/
inductive HostReg where
  | status
  | faultCmd
  | cmd
  | ent
  | outData
  | outCount
  | key (m : Nat)
  | reserved
deriving DecidableEq, Repr

/-- How an access of the host ends. -/
inductive HostOutcome where
  /-- It completes; a read returns a value. -/
  | done (s : State) (value : Option Word)
  /-- It holds: no step happens now (R13, R57 to R59). -/
  | hold
  /-- The model gives it no meaning. -/
  | refused (r : Refusal)

/-- Whether it holds. -/
def HostOutcome.isHold : HostOutcome → Bool
  | .done _ _ => false
  | .hold => true
  | .refused _ => false

/-- The register at an offset from HOST_BASE (R54); every other offset is reserved (R63). -/
def hostReg (p : Params) (offset : Nat) : HostReg :=
  if offset = statusOffset then .status
  else if offset = faultCmdOffset then .faultCmd
  else if offset = cmdOffset then .cmd
  else if offset = entOffset then .ent
  else if offset = outDataOffset then .outData
  else if offset = outCountOffset then .outCount
  else if keyWindowOffset ≤ offset ∧ offset < keyWindowOffset + p.keyBufBytes then
    .key ((offset - keyWindowOffset) / 4)
  else .reserved

/-- A read of OUT_DATA (R59): the head byte is removed and returned, or the read holds. -/
def readOutData (s : State) : HostOutcome :=
  match s.outFifo with
  | b :: rest => .done { s with outFifo := rest } (some (b.setWidth 32))
  | [] => .hold

/-- OUT_COUNT (R60): `min(count, 0xFFFF_FFFF)`. -/
def outCount (s : State) : Word := BitVec.ofNat 32 (min s.outFifo.length 0xFFFFFFFF)

/-- A write to CMD (R57). -/
def writeCmd (w : Word) (s : State) : HostOutcome :=
  if s.fault then .done s none
  else if s.params.cmdFifoDepth ≤ s.cmdFifo.length then .hold
  else .done { s with cmdFifo := s.cmdFifo ++ [w] } none

/-- A write to ENT (R58). -/
def writeEnt (w : Word) (s : State) : HostOutcome :=
  if s.fault then .done s none
  else if s.entReg.isSome then .hold
  else .done { s with entReg := some w } none

/-- A write to the m-th word of the KEY window (R61); it is allowed while FAULT = 1. -/
def writeKey (m : Nat) (w : Word) (s : State) : HostOutcome :=
  .done { s with key := s.key.writeWord m w } none

/-- A host read (R55, R56, R59, R60); a write-only or reserved register reads 0 (R54, R62, R63). -/
def hostRead (r : HostReg) (s : State) : HostOutcome :=
  match r with
  | .status => .done s (some (statusWord s))
  | .faultCmd => .done s (some s.faultCmd)
  | .cmd => .done s (some 0)
  | .ent => .done s (some 0)
  | .outData => readOutData s
  | .outCount => .done s (some (outCount s))
  | .key _ => .done s (some 0)
  | .reserved => .done s (some 0)

/-- A host write (R57, R58, R61); a write to a read-only or reserved register is ignored (R54, R63). -/
def hostWrite (r : HostReg) (w : Word) (s : State) : HostOutcome :=
  match r with
  | .status => .done s none
  | .faultCmd => .done s none
  | .cmd => writeCmd w s
  | .ent => writeEnt w s
  | .outData => .done s none
  | .outCount => .done s none
  | .key m => writeKey m w s
  | .reserved => .done s none

/-- One access (R64, R74): refused outside the window or in another shape than an aligned 32-bit
one, otherwise the read or the write of its register. -/
def hostAccess (a : HostAccess) (s : State) : HostOutcome :=
  if a.addr < s.params.hostBase then .refused .outsideHostWindow
  else if a.width ≠ 32 ∨ (a.addr - s.params.hostBase) % 4 ≠ 0 then .refused .hostAccessShape
  else
    match a.op with
    | .read => hostRead (hostReg s.params (a.addr - s.params.hostBase)) s
    | .write w => hostWrite (hostReg s.params (a.addr - s.params.hostBase)) w s

/-- The wait for a busy bit of STATUS (R233): it is over once a read of STATUS, which has no side
effect (R55), shows the bit 0. What the host reads on the way is not kept (log entry 4). -/
def hostWait (b : BusyBit) (s : State) : HostOutcome :=
  if busyBit b s then .hold else .done s none

/-- One action of the host side. -/
def hostAct (a : HostAction) (s : State) : HostOutcome :=
  match a with
  | .access a => hostAccess a s
  | .wait b => hostWait b s

end Sys2Proof.Machine
end

