-- ==== Sys2Proof/Machine/Agents.lean ====
section
/-! DEFINITION. The steps of the three agents and of the environment (20_memory.md R71 to R74), and where a command word is placed for the next step to take. -/

namespace Sys2Proof.Machine

/-- An agent takes word `w` from its port: decode (R99), the checks of R193 and the effect. Check 1
(ILLEGAL_OPCODE) and check 3 (RESERVED_NONZERO) are made here, the others by the command's meaning. -/
def takeWord (p : Port) (w : Word) (s : State) : Host.Outcome State Fault Refusal :=
  match decode w with
  | .instr i => exec i (onPort p s)
  | .illegal => .next (raiseFault .illegalOpcode p w (onPort p s))
  | .reserved => .next (raiseFault .reservedNonzero p w (onPort p s))

/-- A turn of the generator agent (R72): its one enabled step, or nothing where none is enabled. -/
def generatorTurn (s : State) : Host.Outcome State Fault Refusal :=
  if s.fault then .next s
  else
    match s.genPhase with
    | .idle =>
      match s.cmdFifo with
      | w :: rest => takeWord .cmd w { s with cmdFifo := rest }
      | [] => .next s
    | .gen rem => .next (prgaLoad rem s)
    | .prgaLoaded rem a seen =>
      if FifoDepth.hasRoom s.params.outFifoDepth s.outFifo.length then
        .next (prgaStore rem a seen s)
      else .next s
    | .entLoaded e seen => .next (cmdEntropyStore e seen s)

/-- A turn of the entropy agent (R73): E_LOAD or E_STORE, or nothing where neither is enabled. -/
def entropyTurn (s : State) : Host.Outcome State Fault Refusal :=
  if s.fault then .next s
  else
    match s.entPhase with
    | .idle =>
      match s.entReg with
      | some w => takeWord .ent w { s with entReg := none }
      | none => .next s
    | .loaded e seen _ => .next (entEntropyStore e seen s)

/-- A turn of the host (R74): the k-th action it presents completes, or holds and stays (log entries
2 and 3). What a read returns is appended to `hostReads` (log entry 4). -/
def hostTurn (k : Nat) (s : State) : Host.Outcome State Fault Refusal :=
  match s.hostQueue[k]? with
  | none => .next s
  | some a =>
    match hostAct a s with
    | .done t v =>
      .next { t with hostQueue := s.hostQueue.eraseIdx k, hostReads := s.hostReads ++ v.toList }
    | .hold => .next s
    | .refused r => .refused r

/-- One turn (R71). -/
def takeTurn (t : Turn) (s : State) : Host.Outcome State Fault Refusal :=
  match t with
  | .generator => generatorTurn s
  | .entropy => entropyTurn s
  | .host k => hostTurn k s
  | .por => .next (powerOnReset s)

/-- Who moves now (R71, log entry 1): the next of `turns`, or a free choice. -/
def currentTurn (s : State) : Turn :=
  match s.turns with
  | t :: _ => t
  | [] => Config.freeTurn s.turnCount

/-- The state once who moves now is known. -/
def turnTaken (s : State) : State :=
  match s.turns with
  | _ :: rest => { s with turns := rest }
  | [] => { s with turnCount := s.turnCount + 1 }

/-- The state with word `w` where the next turn takes a command word (log entry 9): the next turn is
the generator agent's, which is idle and not halted, and `w` is the head of the CMD FIFO, in the
place of the word that stood there. -/
def placeCommand (w : Word) (s : State) : State :=
  { s with
    turns := .generator :: s.turns
    fault := false
    genPhase := .idle
    cmdFifo := w :: s.cmdFifo.tail }

end Sys2Proof.Machine
end

