-- ==== Sys2Proof/Machine/Step.lean ====
section
/-! DEFINITION. One step of the machine (00_scope.md R14, 20_memory.md R71). -/

namespace Sys2Proof.Machine

/-- One step: the agent whose turn it is takes its step. -/
def step (s : State) : Host.Outcome State Fault Refusal := takeTurn (currentTurn s) (turnTaken s)

/-- The state with the given command word where `step` takes its next one (log entry 9). -/
def State.withFetchWord (s : State) (nbits w : Nat) : State := placeCommand (tableWord nbits w) s

end Sys2Proof.Machine
end

