-- ==== Sys2Proof/Machine/HostProgram.lean ====
section
/-! DEFINITION. The host's side of a program (30_encoding.md R101): each directive as the accesses and waits of the host (70_reset_and_hazards.md R233), and the state in which a program starts. -/

namespace Sys2Proof.Machine

/-- A line of a program: a command (R100) or a host directive (R101). `.por` is no action of the
host's queue: it is the turn `Turn.por` (log entry 14). -/
inductive Directive where
  /-- R233: the host waits for the busy bit of the port after the word, "unless the program says
  otherwise" (`waits` = false). -/
  | command (c : AsmCommand) (waits : Bool)
  | key (bytes : List Byte)
  | read (k : Nat)
  | status
  /-- `.status`, repeated until a busy bit is 0 (R226). -/
  | statusUntilClear (b : BusyBit)
deriving DecidableEq, Repr

/-- The address of an offset of the core's window (R54). -/
def windowAddr (p : Params) (offset : Nat) : Nat := p.hostBase + offset

/-- A read of the register at an offset. -/
def readAt (p : Params) (offset : Nat) : HostAccess :=
  { addr := windowAddr p offset, width := 32, op := .read }

/-- A write of the register at an offset. -/
def writeAt (p : Params) (offset : Nat) (w : Word) : HostAccess :=
  { addr := windowAddr p offset, width := 32, op := .write w }

/-- Four key bytes as one word of the KEY window, the first in bits [7:0] (R61). -/
def packWord (b0 b1 b2 b3 : Byte) : Word := b3 ++ b2 ++ b1 ++ b0

/-- `.key` (R101): the bytes to K[4m] on, "padding the last word with zero bytes". -/
def keyWrites (p : Params) : Nat → List Byte → List HostAccess
  | m, b0 :: b1 :: b2 :: b3 :: rest =>
    writeAt p (keyWindowOffset + 4 * m) (packWord b0 b1 b2 b3) :: keyWrites p (m + 1) rest
  | m, [b0, b1, b2] => [writeAt p (keyWindowOffset + 4 * m) (packWord b0 b1 b2 0)]
  | m, [b0, b1] => [writeAt p (keyWindowOffset + 4 * m) (packWord b0 b1 0 0)]
  | m, [b0] => [writeAt p (keyWindowOffset + 4 * m) (packWord b0 0 0 0)]
  | _, [] => []

/-- The offset of a command port (R54). -/
def portOffset : Port → Nat
  | .cmd => cmdOffset
  | .ent => entOffset

/-- The bit that tells the host that a port's word has completed (R233). -/
def portBusyBit : Port → BusyBit
  | .cmd => .gen
  | .ent => .ent

/-- The write of a command word, and the wait of R233 where the host waits. -/
def wordActions (p : Params) (waits : Bool) (port : Port) (w : Word) : List HostAction :=
  .access (writeAt p (portOffset port) w) :: if waits then [.wait (portBusyBit port)] else []

/-- The actions of a line; none where the assembler refuses it (R100). -/
def Directive.actions (p : Params) : Directive → Option (List HostAction)
  | .command c waits => (assemble c).map (fun pw => wordActions p waits pw.1 pw.2)
  | .key bytes => some ((keyWrites p 0 bytes).map .access)
  | .read k => some (List.replicate k (.access (readAt p outDataOffset)))
  | .status => some [.access (readAt p statusOffset)]
  | .statusUntilClear b => some [.wait b]

/-- The actions of a program, line after line. -/
def programActions (p : Params) : List Directive → Option (List HostAction)
  | [] => some []
  | d :: ds => (d.actions p).bind (fun as => (programActions p ds).map (fun rest => as ++ rest))

/-- R233: at the end of a run the host reads STATUS, FAULT_CMD and the `count` bytes of the output
FIFO. -/
def endReads (p : Params) (count : Nat) : List HostAction :=
  .access (readAt p statusOffset) :: .access (readAt p faultCmdOffset) ::
    List.replicate count (.access (readAt p outDataOffset))

/-- A program's start (R220, R233): the state after a power-on reset with the program's actions
presented and the order of the steps given. -/
def programStart (p : Params) (actions : List HostAction) (order : List Turn) : State :=
  { State.reset with params := p, hostQueue := actions, turns := order }

end Sys2Proof.Machine
end

