-- ==== Sys2Proof/Safety.lean ====
section
/-! DEFINITION. The terms in which claims speak of safe runs: which steps are enabled (20_memory.md R72, R73), when a run is quiescent and where it ends (70_reset_and_hazards.md R233), and the invariant of the machine. -/

namespace Sys2Proof.Machine

/-- The "enabled when" column of R72: whether the generator agent has an enabled step. -/
def generatorEnabled (s : State) : Bool :=
  !s.fault &&
    match s.genPhase with
    | .idle => !s.cmdFifo.isEmpty
    | .gen _ => true
    | .prgaLoaded _ _ _ => FifoDepth.hasRoom s.params.outFifoDepth s.outFifo.length
    | .entLoaded _ _ => true

/-- The "enabled when" column of R73: whether the entropy agent has an enabled step. -/
def entropyEnabled (s : State) : Bool := !s.fault && (s.entPhase.isLoaded || s.entReg.isSome)

/-- An access or a wait that the host presents and that holds now (R57, R58, R59, R233). -/
def hostHeld (s : State) : Bool := s.hostQueue.any (fun a => (hostAct a s).isHold)

/-- The store of a PRGA step holds now on a full output FIFO (R149, R229). -/
def storeHeld (s : State) : Bool :=
  !s.fault &&
    match s.genPhase with
    | .idle => false
    | .gen _ => false
    | .prgaLoaded _ _ _ => !FifoDepth.hasRoom s.params.outFifoDepth s.outFifo.length
    | .entLoaded _ _ => false

/-- R233: "no step of the generator agent or the entropy agent is enabled and no host access is
held". A run stuck as R229 says never becomes quiescent by R233's own words, so a store that holds
counts as held too (log entry 13). -/
def quiescent (s : State) : Bool :=
  !generatorEnabled s && !entropyEnabled s && !hostHeld s && !storeHeld s

/-- R233: a quiescent point after the last action of the host. -/
def atEnd (s : State) : Bool := s.hostQueue.isEmpty && quiescent s

/-- What the host reads at the end of a run (R233). -/
structure EndView where
  status : Word
  faultCmd : Word
  bytes : List Byte
deriving DecidableEq, Repr

/-- STATUS, FAULT_CMD and the output FIFO at the end of a run (R233). -/
def endView (s : State) : EndView :=
  { status := statusWord s, faultCmd := s.faultCmd, bytes := s.outFifo }

/-- The count of bytes still to generate that a phase of the generator agent holds (R34). -/
def GenPhase.remaining : GenPhase → Option (BitVec 28)
  | .idle => none
  | .gen rem => some rem
  | .prgaLoaded rem _ _ => some rem
  | .entLoaded _ _ => none

/-- What every step of the machine keeps. -/
structure MachineInv (s : State) : Prop where
  /-- The parameters meet the constraints of R6. -/
  params_wf : s.params.wf
  /-- R21: while READY = 1, `T` is a permutation. -/
  table_permutation : s.ready = true → s.gen.table.isPermutation
  /-- R30: the output FIFO holds at most OUT_FIFO_DEPTH bytes. -/
  out_within_depth : ∀ n, s.params.outFifoDepth = .bounded n → s.outFifo.length ≤ n
  /-- R31: the CMD FIFO holds at most CMD_FIFO_DEPTH words. -/
  cmd_within_depth : s.cmdFifo.length ≤ s.params.cmdFifoDepth
  /-- The key memory is in its canonical form. -/
  key_canonical : s.key.wf
  /-- R33, R52: no key byte stands outside the key buffer. -/
  key_within_buffer : ∀ c ∈ s.key, c.1 < s.params.keyBufBytes
  /-- R26, R29: CAUSE, FAULT_PORT and FAULT_CMD are 0 while FAULT = 0. -/
  no_fault_fields : s.fault = false → s.cause = 0 ∧ s.faultPort = .cmd ∧ s.faultCmd = 0
  /-- R191: while FAULT = 1, CAUSE is one of the codes 1 to 7. -/
  fault_cause : s.fault = true → 1 ≤ s.cause.toNat ∧ s.cause.toNat ≤ 7
  /-- A command is in progress only on an initialised core (R193 check 4). -/
  gen_busy_ready : s.genPhase ≠ .idle → s.ready = true
  /-- An ENT-port ADD_ENTROPY is in progress only on an initialised core (R193 check 4). -/
  ent_busy_ready : s.entPhase ≠ .idle → s.ready = true
  /-- R34: the count `rem` is at least 1. -/
  remaining_pos : ∀ rem, s.genPhase.remaining = some rem → rem ≠ 0
  /-- Between the load and the store of a PRGA step, `a` is still T[cursor_i] (R25, R141). -/
  loaded_byte : ∀ rem a seen, s.genPhase = .prgaLoaded rem a seen →
    a = s.gen.table.read s.gen.cursorI
  /-- R35: `word` is the ADD_ENTROPY word of the value held. -/
  ent_word : ∀ e seen w, s.entPhase = .loaded e seen w → w = encode (.addEntropy e)

/-- `k` steps, stopping where one stops. -/
def runSteps : Nat → State → Host.Outcome State Fault Refusal
  | 0, s => .next s
  | k + 1, s =>
    match step s with
    | .next t => runSteps k t
    | .fault r => .fault r
    | .refused r => .refused r

/-- R233: the end state of a run from `s`, "the state at the first quiescent point after its last
host action", where at most `k` steps reach it; none where they do not, or a step stops. -/
def endState : Nat → State → Option State
  | 0, s => if atEnd s then some s else none
  | k + 1, s =>
    if atEnd s then some s
    else
      match step s with
      | .next t => endState k t
      | .fault _ => none
      | .refused _ => none

/-- R226: no ENT word exists: none waits in the ENT register, none is between its load and its store,
and the host presents no write to ENT. -/
def noEntropyWork (s : State) : Prop :=
  s.entReg = none ∧ s.entPhase = .idle ∧
    ∀ a, HostAction.access a ∈ s.hostQueue → ∀ w, a.op = .write w →
      a.addr ≠ s.params.hostBase + entOffset

end Sys2Proof.Machine
end

