-- ==== Sys2Proof/Certificates/Slice0/Obligations.lean ====
section
/-! DEFINITION. The statements for the provers, and the terms they are written in: the spec's own expressions, written again here independently of the machine's definitions. -/

namespace Sys2Proof.Spec

open Sys2Proof.Machine

/-! The fields of a command word, as arithmetic on the word (30_encoding.md R90 to R94). -/

/-- word[31:28]. -/
def wordOp (w : Word) : Nat := w.toNat / 2 ^ 28

/-- word[27:0]. -/
def wordArg (w : Word) : Nat := w.toNat % 2 ^ 28

/-- word[27:16]. -/
def wordRes (w : Word) : Nat := w.toNat / 2 ^ 16 % 2 ^ 12

/-- word[15:0]. -/
def wordEntropy (w : Word) : Nat := w.toNat % 2 ^ 16

/-! The fault checks (60_exceptions.md R191 to R193). -/

/-- The list of R193, in its order: the first condition that a word taken from `p` meets. -/
def firstCause (w : Word) (p : Port) (s : State) : Option Cause :=
  if wordOp w ∉ [1, 2, 3, 4] then some .illegalOpcode
  else if p = .ent ∧ wordOp w ≠ 4 then some .portViolation
  else if wordOp w = 4 ∧ wordRes w ≠ 0 then some .reservedNonzero
  else if wordOp w ∈ [2, 3, 4] ∧ s.ready = false then some .notInitialized
  else if wordOp w ∈ [1, 2] ∧ wordArg w = 0 then some .emptyKey
  else if wordOp w ∈ [1, 2] ∧ s.params.keyBufBytes < wordArg w then some .keyTooLong
  else if wordOp w ∈ [1, 2] ∧ s.entPhase ≠ .idle then some .resetOverlap
  else none

/-- The code column of R191. -/
def causeNumber : Cause → BitVec 4
  | .illegalOpcode => 1
  | .portViolation => 2
  | .reservedNonzero => 3
  | .notInitialized => 4
  | .emptyKey => 5
  | .keyTooLong => 6
  | .resetOverlap => 7

/-- The fields that R194 writes, and no other. -/
def faulted (c : Cause) (p : Port) (w : Word) (s : State) : State :=
  { s with fault := true, cause := causeNumber c, faultPort := p, faultCmd := w }

/-! The algorithms over tables as functions of the index (40_ksa_init.md, 41_prga_generate.md). -/

/-- R12. -/
def swapAt (t : Byte → Byte) (x y : Byte) : Byte → Byte := fun z =>
  if z = x then t y else if z = y then t x else t z

/-- R112: `T[k] = (233 * (k + 1)) mod 256`. -/
def filled : Byte → Byte := fun k => 233 * (k + 1)

/-- R114: the table and `j` after `r` rounds of KSA_MIX with a key of `len` bytes; `i` is r mod 256. -/
def mixed (key : Nat → Byte) (len : Nat) : Nat → (Byte → Byte) × Byte
  | 0 => (filled, 0)
  | r + 1 =>
    let t := (mixed key len r).1
    let i := BitVec.ofNat 8 r
    let j := (mixed key len r).2 + t i + key (r % len)
    (swapAt t i j, j)

/-- R165's f: what a PRGA step stores after it loaded `x`. -/
def prgaValue (a : Byte) (x : Word) : Word := x.rotateLeft 1 + a.setWidth 32

/-- `cursor_i` at PRGA step k + 1 from a state whose `cursor_i` is `ci` (R146). -/
def cursorAt (ci : Byte) (k : Nat) : Byte := ci + BitVec.ofNat 8 (11 * (k + 1))

/-- R141, R142: the table and `cursor_j` after `k` PRGA steps with no other `cursor_j` access. -/
def streamed (t : Byte → Byte) (ci : Byte) (cj : Word) : Nat → (Byte → Byte) × Word
  | 0 => (t, cj)
  | k + 1 =>
    let u := (streamed t ci cj k).1
    let i := cursorAt ci k
    let v := prgaValue (u i) (streamed t ci cj k).2
    (swapAt u i (v.setWidth 8), v)

/-- The byte of PRGA step k + 1 (R142): `T[a +_8 b]` after the swap, `a` and `b` read before it. -/
def streamByte (t : Byte → Byte) (ci : Byte) (cj : Word) (k : Nat) : Byte :=
  let u := (streamed t ci cj k).1
  let a := u (cursorAt ci k)
  let b := u ((prgaValue a (streamed t ci cj k).2).setWidth 8)
  (streamed t ci cj (k + 1)).1 (a + b)

/-- The bytes of `n` PRGA steps from a generator state, in order (R148). -/
def stream (g : Generator) (n : Nat) : List Byte :=
  (List.range n).map (streamByte (Table.read g.table) g.cursorI g.cursorJ)

/-- R165's g: what an ADD_ENTROPY of `e` stores after it loaded `x` (R160). -/
def entropyValue (e : Half) (x : Word) : Word :=
  ((x.extractLsb' 16 16).rotateLeft 1 + e) ++ x.extractLsb' 0 16

/-- `cursor_i` after INIT: what KSA_FINISH set (R116, R117), over max(L, 256) rounds (R125). -/
def keyedCursor (key : Nat → Byte) (len : Nat) : Byte :=
  (mixed key len (max len 256)).1 ((mixed key len (max len 256)).2 ^^^ 0x55)

/-- The table and `cursor_j` after INIT: 256 discarded PRGA steps from KSA_FINISH's state (R117). -/
def keyedTable (key : Nat → Byte) (len : Nat) : (Byte → Byte) × Word :=
  streamed (mixed key len (max len 256)).1 (keyedCursor key len) 0 256

/-- A generator state as the key gives it. -/
def builtFrom (key : Nat → Byte) (len : Nat) (g : Generator) : Prop :=
  (∀ x, Table.read g.table x = (keyedTable key len).1 x) ∧ g.cursorI = keyedCursor key len ∧
    g.cursorJ = (keyedTable key len).2

/-! Conditions and shapes used by several statements. -/

/-- The first `len` key bytes have the values `key` (R121). -/
def keyHolds (s : State) (key : Nat → Byte) (len : Nat) : Prop :=
  ∀ x, x < len → s.key.read x = some (key x)

/-- No check of R193 that a key command can meet on CMD applies, but for check 4. -/
def keyCommandLegal (s : State) (L : BitVec 28) : Prop :=
  s.port = .cmd ∧ 1 ≤ L.toNat ∧ L.toNat ≤ s.params.keyBufBytes ∧ s.entPhase = .idle

/-- The core takes CMD words and has been initialised. -/
def idleAndReady (s : State) : Prop := s.fault = false ∧ s.ready = true ∧ s.genPhase = .idle

/-- The output FIFO has room for `n` more bytes. -/
def roomFor (s : State) (n : Nat) : Prop :=
  ∀ k, k < n → FifoDepth.hasRoom s.params.outFifoDepth (s.outFifo.length + k) = true

/-- The host's k-th access moves next and is a 32-bit access of the register at `off`. -/
def presents (s : State) (k : Nat) (ts : List Turn) (off : Nat) (op : HostOp) : Prop :=
  s.turns = .host k :: ts ∧
    s.hostQueue[k]? = some (.access { addr := s.params.hostBase + off, width := 32, op := op })

/-- `s` after the host's k-th action completed and returned `values`. -/
def accessDone (s : State) (k : Nat) (ts : List Turn) (values : List Word) : State :=
  { s with
    turns := ts, hostQueue := s.hostQueue.eraseIdx k, hostReads := s.hostReads ++ values }

/-- The outcome of a step with `f` applied to a next state. -/
def mapNext (f : State → State) :
    Host.Outcome State Fault Refusal → Host.Outcome State Fault Refusal
  | .next t => .next (f t)
  | .fault r => .fault r
  | .refused r => .refused r

/-- A PRGA step P and an ENT-port ADD_ENTROPY of `e` are both next (R165). -/
def raceReady (s : State) (rem : BitVec 28) (e : Half) : Prop :=
  s.fault = false ∧ s.ready = true ∧ s.genPhase = .gen rem ∧ s.entPhase = .idle ∧
    (∃ w, s.entReg = some w ∧ decode w = .instr (.addEntropy e)) ∧ roomFor s 1

/-- A row of R165's table: after the four turns of `order`, `cursor_j` is `final`, P computed its j0
from `pSeen`, and P's swap and output use that j0. -/
def raceEnds (s : State) (order : List Turn) (final pSeen : Word) : Prop :=
  ∀ ts, s.turns = order ++ ts →
    let i := s.gen.cursorI + 11
    let a := Table.read s.gen.table i
    let j0 : Byte := (prgaValue a pSeen).setWidth 8
    let u := swapAt (Table.read s.gen.table) i j0
    ∃ t, runSteps 4 s = .next t ∧ t.fault = false ∧ t.entPhase = .idle ∧ t.gen.cursorJ = final ∧
      t.gen.cursorI = i ∧ (∀ x, Table.read t.gen.table x = u x) ∧
      t.outFifo = s.outFifo ++ [u (a + Table.read s.gen.table j0)]

end Sys2Proof.Spec

open Sys2Proof Sys2Proof.Machine Sys2Proof.Spec

/-! Encoding. -/

/-- R90 to R94, R99: decoding and encoding agree in both directions, over every operand. -/
def Obligations.DecodeAndEncodeAgree : Prop :=
  ∀ (w : Word) (i : Instr), decode w = .instr i ↔ encode i = w

/-- R99: `decode_fields`, for every 32-bit word. -/
def Obligations.FieldExtractionIsTotal : Prop :=
  ∀ w : Word, decode w =
    if wordOp w = 1 then .instr (.init (BitVec.ofNat 28 (wordArg w)))
    else if wordOp w = 2 then .instr (.reset (BitVec.ofNat 28 (wordArg w)))
    else if wordOp w = 3 then .instr (.generate (BitVec.ofNat 28 (wordArg w)))
    else if wordOp w = 4 then
      if wordRes w ≠ 0 then .reserved else .instr (.addEntropy (BitVec.ofNat 16 (wordEntropy w)))
    else .illegal

/-- R102: the worked encodings, assembled and decoded. -/
def Obligations.WorkedEncodings : Prop :=
  (assemble ⟨.cmd, .INIT, 3⟩ = some (.cmd, 0x10000003) ∧
    decode 0x10000003 = .instr (.init 3)) ∧
  (assemble ⟨.cmd, .INIT, 257⟩ = some (.cmd, 0x10000101) ∧
    decode 0x10000101 = .instr (.init 257)) ∧
  (assemble ⟨.cmd, .RESET, 3⟩ = some (.cmd, 0x20000003) ∧
    decode 0x20000003 = .instr (.reset 3)) ∧
  (assemble ⟨.cmd, .GENERATE, 0⟩ = some (.cmd, 0x30000000) ∧
    decode 0x30000000 = .instr (.generate 0)) ∧
  (assemble ⟨.cmd, .GENERATE, 16⟩ = some (.cmd, 0x30000010) ∧
    decode 0x30000010 = .instr (.generate 16)) ∧
  (assemble ⟨.cmd, .GENERATE, 268435455⟩ = some (.cmd, 0x3FFFFFFF) ∧
    decode 0x3FFFFFFF = .instr (.generate 268435455)) ∧
  (assemble ⟨.cmd, .ADD_ENTROPY, 0x1234⟩ = some (.cmd, 0x40001234) ∧
    decode 0x40001234 = .instr (.addEntropy 0x1234)) ∧
  (assemble ⟨.cmd, .ADD_ENTROPY, 0xFFFF⟩ = some (.cmd, 0x4000FFFF) ∧
    decode 0x4000FFFF = .instr (.addEntropy 0xFFFF)) ∧
  decode 0x40010000 = .reserved ∧ decode 0x00000000 = .illegal ∧ decode 0x50000000 = .illegal

/-- R100: the assembler makes the word `(OP << 28) | operand` for the port named, and refuses exactly
the operands that do not fit their field. -/
def Obligations.AssembledWordIsOpcodeAndOperand : Prop :=
  ∀ c : AsmCommand,
    let op := match c.mnemonic with | .INIT => 1 | .RESET => 2 | .GENERATE => 3 | .ADD_ENTROPY => 4
    let bound := match c.mnemonic with
      | .INIT => 2 ^ 28 | .RESET => 2 ^ 28 | .GENERATE => 2 ^ 28 | .ADD_ENTROPY => 2 ^ 16
    (bound ≤ c.operand → assemble c = none) ∧
    (c.operand < bound →
      ∃ w : Word, assemble c = some (c.port, w) ∧ w.toNat = op * 2 ^ 28 + c.operand)

/-! Taking a command word. -/

/-- 20_memory.md R72, R73, R79: when it is the generator agent's turn, it is idle and not halted, and
the head of the CMD FIFO decodes to `i`, the step is `exec i` on the state with that word removed; the
same for the entropy agent and the ENT register. -/
def Obligations.StepRunsTheDecodedCommand : Prop :=
  (∀ (s : State) (w : Word) (ws : List Word) (ts : List Turn) (i : Instr),
    s.turns = .generator :: ts → s.fault = false → s.genPhase = .idle → s.cmdFifo = w :: ws →
    decode w = .instr i →
    step s = exec i { s with turns := ts, cmdFifo := ws, port := .cmd }) ∧
  (∀ (s : State) (w : Word) (ts : List Turn) (i : Instr),
    s.turns = .entropy :: ts → s.fault = false → s.entPhase = .idle → s.entReg = some w →
    decode w = .instr i →
    step s = exec i { s with turns := ts, entReg := none, port := .ent })

/-- R193: a word taken from a port faults with the first condition of the list that it meets; where it
meets none, the command executes: no fault is taken. -/
def Obligations.WordTakesFirstMatchingFault : Prop :=
  ∀ (w : Word) (p : Port) (s : State),
    (∀ c, firstCause w p s = some c → takeWord p w s = .next (faulted c p w { s with port := p })) ∧
    (firstCause w p s = none →
      (∃ i, decode w = .instr i ∧ takeWord p w s = exec i { s with port := p }) ∧
      ∀ t, takeWord p w s = .next t → t.fault = s.fault ∧ t.cause = s.cause ∧
        t.faultPort = s.faultPort ∧ t.faultCmd = s.faultCmd)

/-- R194, R195: the whole effect of a fault at the step that takes the word: FAULT, CAUSE, FAULT_PORT
and FAULT_CMD are written, the word is consumed, and nothing else changes. (`turns` and `port` are the
model's own fields.) -/
def Obligations.FaultEntryChangesOnlyFaultFields : Prop :=
  (∀ (s : State) (w : Word) (ws : List Word) (ts : List Turn) (c : Cause),
    s.turns = .generator :: ts → s.fault = false → s.genPhase = .idle → s.cmdFifo = w :: ws →
    firstCause w .cmd s = some c →
    step s = .next { s with turns := ts, cmdFifo := ws, port := .cmd, fault := true,
                            cause := causeNumber c, faultPort := .cmd, faultCmd := w }) ∧
  (∀ (s : State) (w : Word) (ts : List Turn) (c : Cause),
    s.turns = .entropy :: ts → s.fault = false → s.entPhase = .idle → s.entReg = some w →
    firstCause w .ent s = some c →
    step s = .next { s with turns := ts, entReg := none, port := .ent, fault := true,
                            cause := causeNumber c, faultPort := .ent, faultCmd := w })

/-- R96: a word with OP in {0x0, 0x5, ..., 0xF} faults ILLEGAL_OPCODE (code 1) on either port, and
nothing else happens. -/
def Obligations.IllegalWordFaultsOnEitherPort : Prop :=
  ∀ (w : Word) (p : Port) (s : State), wordOp w = 0 ∨ 5 ≤ wordOp w →
    takeWord p w s = .next { s with port := p, fault := true, cause := 1, faultPort := p,
                                    faultCmd := w }

/-- R196, R71: while FAULT = 1 a turn of the generator agent or the entropy agent changes nothing. -/
def Obligations.HaltedAgentsDoNothing : Prop :=
  ∀ (s : State) (t : Turn) (ts : List Turn), s.fault = true → t = .generator ∨ t = .entropy →
    s.turns = t :: ts → step s = .next { s with turns := ts }

/-- R198: no step but a power-on reset changes FAULT, CAUSE, FAULT_PORT or FAULT_CMD once FAULT = 1; a
word written to CMD or ENT is then discarded; power-on reset clears all four. -/
def Obligations.OnlyPowerOnResetClearsAFault : Prop :=
  (∀ s t : State, s.fault = true → currentTurn s ≠ .por → step s = .next t →
    t.fault = true ∧ t.cause = s.cause ∧ t.faultPort = s.faultPort ∧ t.faultCmd = s.faultCmd) ∧
  (∀ (s : State) (k : Nat) (ts : List Turn) (w : Word), s.fault = true →
    presents s k ts 0x008 (.write w) ∨ presents s k ts 0x00C (.write w) →
    step s = .next (accessDone s k ts [])) ∧
  (∀ s t : State, currentTurn s = .por → step s = .next t →
    t.fault = false ∧ t.cause = 0 ∧ t.faultPort = .cmd ∧ t.faultCmd = 0)

/-- R190: only the step that takes a command word can raise FAULT. -/
def Obligations.OnlyTakingAWordCanFault : Prop :=
  ∀ s t : State, s.fault = false → step s = .next t → t.fault = true →
    (∃ w ws, currentTurn s = .generator ∧ s.genPhase = .idle ∧ s.cmdFifo = w :: ws ∧
      t.cmdFifo = ws ∧ t.faultPort = .cmd ∧ t.faultCmd = w ∧ t.genPhase = .idle) ∨
    (∃ w, currentTurn s = .entropy ∧ s.entPhase = .idle ∧ s.entReg = some w ∧
      t.entReg = none ∧ t.faultPort = .ent ∧ t.faultCmd = w ∧ t.entPhase = .idle)

/-! INIT and RESET. -/

/-- R110 to R117, R119, R125: INIT completes in one step with the generator state that the key gives,
written here over function tables, and READY = 1; nothing else changes. -/
def Obligations.InitBuildsGeneratorFromKey : Prop :=
  ∀ (s : State) (L : BitVec 28) (key : Nat → Byte),
    keyCommandLegal s L → keyHolds s key L.toNat →
    ∃ g, exec (.init L) s = .next { s with gen := g, ready := true } ∧ builtFrom key L.toNat g

/-- R180: RESET on an initialised core completes in one step with the generator state that the key
gives; READY stays 1 and nothing else changes. -/
def Obligations.ResetBuildsGeneratorFromKey : Prop :=
  ∀ (s : State) (L : BitVec 28) (key : Nat → Byte),
    s.ready = true → keyCommandLegal s L → keyHolds s key L.toNat →
    ∃ g, exec (.reset L) s = .next { s with gen := g } ∧ builtFrom key L.toNat g

/-- R181, R183: when READY = 1, RESET and INIT that take no fault have the same effect; when READY = 0
a RESET that INIT's checks would let run faults NOT_INITIALIZED (code 4). -/
def Obligations.ResetEqualsInitWhenReady : Prop :=
  ∀ (s : State) (L : BitVec 28), keyCommandLegal s L →
    (s.ready = true → exec (.reset L) s = exec (.init L) s) ∧
    (s.ready = false →
      exec (.reset L) s = .next (faulted .notInitialized .cmd (encode (.reset L)) s))

/-- R41, R121: an INIT or RESET that takes no fault stops in the model fault UNWRITTEN_KEY_BYTE exactly
when one of K[0] to K[L - 1] has no value; otherwise it completes. -/
def Obligations.UnwrittenKeyByteStopsRekeying : Prop :=
  ∀ (s : State) (L : BitVec 28) (i : Instr),
    keyCommandLegal s L → (i = .init L ∨ (i = .reset L ∧ s.ready = true)) →
    ((∃ x, x < L.toNat ∧ s.key.read x = none) ↔ exec i s = .fault .unwrittenKeyByte) ∧
    ((∀ x, x < L.toNat → s.key.read x ≠ none) ↔ ∃ t, exec i s = .next t)

/-- R112: the table that KSA_FILL writes. -/
def Obligations.FillTableIsStride233 : Prop :=
  (∀ k : Byte, (Table.read ksaFill k).toNat = 233 * (k.toNat + 1) % 256) ∧
    Table.read ksaFill 0 = 0xE9 ∧ Table.read ksaFill 1 = 0xD2 ∧ Table.read ksaFill 2 = 0xBB ∧
    Table.read ksaFill 254 = 0x17 ∧ Table.read ksaFill 255 = 0x00

/-- R124: the result of INIT depends only on L and on K[0] to K[L - 1]. -/
def Obligations.InitDependsOnlyOnItsKey : Prop :=
  ∀ (s s' t t' : State) (L : BitVec 28),
    keyCommandLegal s L → keyCommandLegal s' L →
    (∀ x, x < L.toNat → s.key.read x = s'.key.read x) →
    exec (.init L) s = .next t → exec (.init L) s' = .next t' → t.gen = t'.gen

/-- R123, R21: after KSA_FILL, and after every INIT or RESET that takes no fault, `T` is a
permutation. -/
def Obligations.RekeyedTableIsPermutation : Prop :=
  Table.isPermutation ksaFill ∧
  ∀ (s t : State) (L : BitVec 28) (i : Instr), keyCommandLegal s L →
    (i = .init L ∨ (i = .reset L ∧ s.ready = true)) → exec i s = .next t →
    Table.isPermutation t.gen.table

/-- R117: DISCARD is 256 PRGA steps; it leaves `cursor_i` as it was and keeps a permutation. -/
def Obligations.DiscardKeepsCursorI : Prop :=
  ∀ g : Generator, g.discard.cursorI = g.cursorI ∧
    (∀ x, Table.read g.discard.table x =
      (streamed (Table.read g.table) g.cursorI g.cursorJ 256).1 x) ∧
    g.discard.cursorJ = (streamed (Table.read g.table) g.cursorI g.cursorJ 256).2 ∧
    (Table.isPermutation g.table → Table.isPermutation g.discard.table)

/-- R122: INIT does not change the output FIFO, the CMD FIFO, the ENT register or the key buffer. -/
def Obligations.InitKeepsPortsAndKey : Prop :=
  ∀ (s t : State) (L : BitVec 28), exec (.init L) s = .next t →
    t.outFifo = s.outFifo ∧ t.cmdFifo = s.cmdFifo ∧ t.entReg = s.entReg ∧ t.key = s.key

/-- The frame of the step that takes a command, for all four: the FIFOs, the ENT register, every byte
of the key buffer (R33: the core never writes it), the parameters and the outside world are unchanged;
GENERATE and ADD_ENTROPY leave `T`, both cursors and READY, and INIT and RESET leave both phases. -/
def Obligations.CommandsKeepPortsAndKey : Prop :=
  ∀ (i : Instr) (s t : State), exec i s = .next t →
    t.outFifo = s.outFifo ∧ t.cmdFifo = s.cmdFifo ∧ t.entReg = s.entReg ∧
    (∀ x, t.key.read x = s.key.read x) ∧ t.params = s.params ∧ t.port = s.port ∧
    t.turns = s.turns ∧ t.turnCount = s.turnCount ∧ t.hostQueue = s.hostQueue ∧
    t.hostReads = s.hostReads ∧
    (∀ n, i = .generate n → t.gen = s.gen ∧ t.ready = s.ready ∧ t.entPhase = s.entPhase) ∧
    (∀ e, i = .addEntropy e → t.gen = s.gen ∧ t.ready = s.ready) ∧
    (∀ L, i = .init L ∨ i = .reset L → t.genPhase = s.genPhase ∧ t.entPhase = s.entPhase)

/-! GENERATE. -/

/-- R140, R145: GENERATE n on an initialised core completes; n = 0 changes nothing, n ≥ 1 sets
`gen_phase <- GEN(n)` and nothing else. -/
def Obligations.GenerateStartsCounting : Prop :=
  ∀ (s : State) (n : BitVec 28), s.port = .cmd → s.ready = true →
    (n = 0 → exec (.generate n) s = .next s) ∧
    (n ≠ 0 → exec (.generate n) s = .next { s with genPhase := .gen n })

/-- R141: the load step of a PRGA step. -/
def Obligations.PrgaLoadStep : Prop :=
  ∀ (s : State) (rem : BitVec 28) (ts : List Turn),
    s.turns = .generator :: ts → s.fault = false → s.genPhase = .gen rem →
    step s = .next { s with
      turns := ts
      gen := { s.gen with cursorI := s.gen.cursorI + 11 }
      genPhase := .prgaLoaded rem (Table.read s.gen.table (s.gen.cursorI + 11)) s.gen.cursorJ }

/-- R142: the store step of a PRGA step, with `j0` from the value it stores, `b` read before the swap
and the output byte after it. -/
def Obligations.PrgaStoreStep : Prop :=
  ∀ (s : State) (rem : BitVec 28) (a : Byte) (seen : Word) (ts : List Turn),
    s.turns = .generator :: ts → s.fault = false → s.genPhase = .prgaLoaded rem a seen →
    roomFor s 1 →
    let v := seen.rotateLeft 1 + a.setWidth 32
    let j0 : Byte := v.setWidth 8
    let b := Table.read s.gen.table j0
    let u := swapAt (Table.read s.gen.table) s.gen.cursorI j0
    ∃ t : Table, (∀ x, Table.read t x = u x) ∧
      step s = .next { s with
        turns := ts
        gen := { table := t, cursorI := s.gen.cursorI, cursorJ := v }
        outFifo := s.outFifo ++ [u (a + b)]
        genPhase := if rem = 1 then .idle else .gen (rem - 1) }

/-- R143: after the swap T[cursor_i] = b and T[j0] = a; when cursor_i ≠ j0, u = cursor_i gives the
output b, u = j0 gives a, and any other u gives the untouched element T[u]. -/
def Obligations.PrgaOutputCases : Prop :=
  ∀ (g : Generator) (seen : Word),
    let a := Table.read g.table g.cursorI
    let j0 : Byte := (seen.rotateLeft 1 + a.setWidth 32).setWidth 8
    let b := Table.read g.table j0
    let g' := g.store a seen
    Table.read g'.table g.cursorI = b ∧ Table.read g'.table j0 = a ∧
    (g.cursorI ≠ j0 →
      (a + b = g.cursorI → g.outputByte a seen = b) ∧ (a + b = j0 → g.outputByte a seen = a) ∧
      (a + b ≠ g.cursorI → a + b ≠ j0 → g.outputByte a seen = Table.read g.table (a + b)))

/-- R144: when j0 = cursor_i, the swap leaves `T` unchanged and the output is T[2a mod 256]. -/
def Obligations.AliasedPrgaStep : Prop :=
  ∀ (g : Generator) (seen : Word),
    let a := Table.read g.table g.cursorI
    let j0 : Byte := (seen.rotateLeft 1 + a.setWidth 32).setWidth 8
    j0 = g.cursorI →
    Table.read g.table j0 = a ∧ (g.store a seen).table = g.table ∧
      g.outputByte a seen = Table.read g.table (BitVec.ofNat 8 (2 * a.toNat % 256))

/-- R149: the store step holds while the output FIFO is full and a host read of OUT_DATA lifts the
hold; with OUT_FIFO_DEPTH = UNBOUNDED it never holds. -/
def Obligations.FullOutputFifoHoldsTheStore : Prop :=
  ∀ (s : State) (rem : BitVec 28) (a : Byte) (seen : Word),
    s.fault = false → s.genPhase = .prgaLoaded rem a seen →
    (∀ n, s.params.outFifoDepth = .bounded n → s.outFifo.length = n →
      (∀ ts, s.turns = .generator :: ts → step s = .next { s with turns := ts }) ∧
      (∀ k ts, presents s k ts 0x010 .read → 1 ≤ n →
        ∃ t, step s = .next t ∧ generatorEnabled t = true)) ∧
    (s.params.outFifoDepth = .unbounded → generatorEnabled s = true)

/-- R140, R142, R146, R148 and the step count of R82: GENERATE n, run with no step of another agent
between its own and with room in the output FIFO, takes 2n + 1 steps, appends exactly the n bytes of
the PRGA in step order, and leaves the table and the cursors that n PRGA steps give; nothing else
changes. -/
def Obligations.GenerateEmitsItsStream : Prop :=
  ∀ (s : State) (n : BitVec 28) (w : Word) (ws : List Word) (ts : List Turn),
    idleAndReady s → decode w = .instr (.generate n) → s.cmdFifo = w :: ws →
    s.turns = List.replicate (2 * n.toNat + 1) .generator ++ ts → roomFor s n.toNat →
    ∃ g : Generator,
      runSteps (2 * n.toNat + 1) s = .next { s with
        turns := ts, port := .cmd, cmdFifo := ws, gen := g
        outFifo := s.outFifo ++ stream s.gen n.toNat } ∧
      (∀ x, Table.read g.table x =
        (streamed (Table.read s.gen.table) s.gen.cursorI s.gen.cursorJ n.toNat).1 x) ∧
      g.cursorI = s.gen.cursorI + BitVec.ofNat 8 (11 * n.toNat) ∧
      g.cursorJ = (streamed (Table.read s.gen.table) s.gen.cursorI s.gen.cursorJ n.toNat).2

/-- R151: GENERATE a followed by GENERATE b ends in the same state, with the same bytes appended, as a
single GENERATE (a + b), when no other agent's step falls between them. -/
def Obligations.SplitGenerateIsOneGenerate : Prop :=
  ∀ (s : State) (a b : BitVec 28) (wa wb wc : Word) (ws : List Word) (ts : List Turn),
    idleAndReady s → a.toNat + b.toNat < 2 ^ 28 →
    decode wa = .instr (.generate a) → decode wb = .instr (.generate b) →
    decode wc = .instr (.generate (a + b)) → roomFor s (a.toNat + b.toNat) →
    ∃ t,
      runSteps (2 * (a.toNat + b.toNat) + 2) { s with
        cmdFifo := wa :: wb :: ws
        turns := List.replicate (2 * (a.toNat + b.toNat) + 2) .generator ++ ts } = .next t ∧
      runSteps (2 * (a.toNat + b.toNat) + 1) { s with
        cmdFifo := wc :: ws
        turns := List.replicate (2 * (a.toNat + b.toNat) + 1) .generator ++ ts } = .next t

/-- R182: INIT L; GENERATE n; RESET L; GENERATE n, with the key bytes in place and no other agent's
step between, appends the same n bytes twice. -/
def Obligations.ResetRepeatsTheStream : Prop :=
  ∀ (s : State) (L n : BitVec 28) (key : Nat → Byte) (wi wg wr : Word) (ws : List Word)
    (ts : List Turn),
    s.fault = false → s.genPhase = .idle → s.entPhase = .idle → 1 ≤ L.toNat →
    L.toNat ≤ s.params.keyBufBytes → keyHolds s key L.toNat → roomFor s (2 * n.toNat) →
    decode wi = .instr (.init L) → decode wg = .instr (.generate n) →
    decode wr = .instr (.reset L) → s.cmdFifo = wi :: wg :: wr :: wg :: ws →
    s.turns = List.replicate (4 * n.toNat + 4) .generator ++ ts →
    ∃ (t : State) (bytes : List Byte), runSteps (4 * n.toNat + 4) s = .next t ∧
      bytes.length = n.toNat ∧ t.outFifo = s.outFifo ++ bytes ++ bytes ∧ t.cmdFifo = ws ∧
      t.turns = ts ∧ t.fault = false ∧ t.ready = true ∧ t.genPhase = .idle

/-! ADD_ENTROPY. -/

/-- R161, R163: ADD_ENTROPY on an initialised core completes its load step on either port: the value,
the loaded `cursor_j` and (on ENT) the command word are held in the agent's phase; nothing else
changes. -/
def Obligations.AddEntropyLoadsOnEitherPort : Prop :=
  ∀ (s : State) (e : Half), s.ready = true →
    (s.port = .cmd →
      exec (.addEntropy e) s = .next { s with genPhase := .entLoaded e s.gen.cursorJ }) ∧
    (s.port = .ent → ∃ w : Word, w.toNat = 4 * 2 ^ 28 + e.toNat ∧
      exec (.addEntropy e) s = .next { s with entPhase := .loaded e s.gen.cursorJ w })

/-- R162, R163: the store step writes `{ rotl_16(seen[31:16], 1) +_16 e, seen[15:0] }` to `cursor_j`,
whatever `cursor_j` is now, and the agent's phase is IDLE; nothing else changes. -/
def Obligations.EntropyStoreStep : Prop :=
  (∀ (s : State) (e : Half) (seen w : Word) (ts : List Turn),
    s.turns = .entropy :: ts → s.fault = false → s.entPhase = .loaded e seen w →
    ∃ v : Word, v.extractLsb' 16 16 = (seen.extractLsb' 16 16).rotateLeft 1 + e ∧
      v.extractLsb' 0 16 = seen.extractLsb' 0 16 ∧
      step s = .next { s with turns := ts, gen := { s.gen with cursorJ := v }, entPhase := .idle }) ∧
  (∀ (s : State) (e : Half) (seen : Word) (ts : List Turn),
    s.turns = .generator :: ts → s.fault = false → s.genPhase = .entLoaded e seen →
    ∃ v : Word, v.extractLsb' 16 16 = (seen.extractLsb' 16 16).rotateLeft 1 + e ∧
      v.extractLsb' 0 16 = seen.extractLsb' 0 16 ∧
      step s = .next { s with turns := ts, gen := { s.gen with cursorJ := v }, genPhase := .idle })

/-- R164: with no step of another agent between its load and its store, ADD_ENTROPY changes `cursor_j`
from c to `{ rotl_16(c[31:16], 1) +_16 e, c[15:0] }`; its word is consumed and every other state is
unchanged. -/
def Obligations.UninterruptedAddEntropy : Prop :=
  (∀ (s : State) (e : Half) (w : Word) (ts : List Turn),
    s.fault = false → s.ready = true → s.entPhase = .idle → s.entReg = some w →
    decode w = .instr (.addEntropy e) → s.turns = .entropy :: .entropy :: ts →
    runSteps 2 s = .next { s with
      turns := ts, port := .ent, entReg := none
      gen := { s.gen with cursorJ := entropyValue e s.gen.cursorJ } }) ∧
  (∀ (s : State) (e : Half) (w : Word) (ws : List Word) (ts : List Turn),
    idleAndReady s → s.cmdFifo = w :: ws → decode w = .instr (.addEntropy e) →
    s.turns = .generator :: .generator :: ts →
    runSteps 2 s = .next { s with
      turns := ts, port := .cmd, cmdFifo := ws
      gen := { s.gen with cursorJ := entropyValue e s.gen.cursorJ } })

/-- R165: the six orders in which a PRGA step P and an ENT-port ADD_ENTROPY E can interleave, each with
the `cursor_j` after both and the value from which P's j0 comes. -/
def Obligations.SixInterleavings : Prop :=
  ∀ (s : State) (rem : BitVec 28) (e : Half), raceReady s rem e →
    let c := s.gen.cursorJ
    let f := prgaValue (Table.read s.gen.table (s.gen.cursorI + 11))
    let g := entropyValue e
    raceEnds s [.entropy, .entropy, .generator, .generator] (f (g c)) (g c) ∧
    raceEnds s [.generator, .generator, .entropy, .entropy] (g (f c)) c ∧
    raceEnds s [.entropy, .generator, .generator, .entropy] (g c) c ∧
    raceEnds s [.generator, .entropy, .generator, .entropy] (g c) c ∧
    raceEnds s [.entropy, .generator, .entropy, .generator] (f c) c ∧
    raceEnds s [.generator, .entropy, .entropy, .generator] (f c) c

/-- R167: e = 0 leaves `cursor_j` as it is exactly when H is 0x0000 or 0xFFFF; any e does exactly when
e = (H - rotl_16(H, 1)) mod 2^16; H = 0xFFFF with e = 1 wraps to 0. -/
def Obligations.EntropyFixedPoints : Prop :=
  (∀ c : Word, newCursorJ c 0 = c ↔ highHalf c = 0x0000 ∨ highHalf c = 0xFFFF) ∧
  (∀ (c : Word) (e : Half),
    newCursorJ c e = c ↔ e = highHalf c - (highHalf c).rotateLeft 1) ∧
  (∀ c : Word, highHalf c = 0x0001 → newCursorJ c 0xFFFF = c) ∧
  (∀ c : Word, highHalf c = 0xFFFF → highHalf (newCursorJ c 1) = 0x0000)

/-- R168: a CMD-port and an ENT-port ADD_ENTROPY that both load before either stores: the later store
overwrites the earlier one, and the core does not fault. -/
def Obligations.TwoInjectorsLoseOneUpdate : Prop :=
  ∀ (s : State) (e1 e2 : Half) (w1 w2 : Word) (ws : List Word) (ts order : List Turn),
    idleAndReady s → s.entPhase = .idle → s.cmdFifo = w1 :: ws → s.entReg = some w2 →
    decode w1 = .instr (.addEntropy e1) → decode w2 = .instr (.addEntropy e2) →
    s.turns = order ++ ts →
    (order = [.generator, .entropy, .generator, .entropy] ∨
        order = [.entropy, .generator, .generator, .entropy] →
      ∃ t, runSteps 4 s = .next t ∧ t.gen.cursorJ = entropyValue e2 s.gen.cursorJ ∧
        t.fault = false ∧ t.genPhase = .idle ∧ t.entPhase = .idle) ∧
    (order = [.generator, .entropy, .entropy, .generator] ∨
        order = [.entropy, .generator, .entropy, .generator] →
      ∃ t, runSteps 4 s = .next t ∧ t.gen.cursorJ = entropyValue e1 s.gen.cursorJ ∧
        t.fault = false ∧ t.genPhase = .idle ∧ t.entPhase = .idle)

/-- R171: successive injections with no access between them compose: H becomes
rotl_16(rotl_16(H, 1) +_16 e1, 1) +_16 e2, and bits [15:0] are unchanged. -/
def Obligations.InjectionsAccumulate : Prop :=
  ∀ (c : Word) (e1 e2 : Half),
    highHalf (newCursorJ (newCursorJ c e1) e2) =
        ((highHalf c).rotateLeft 1 + e1).rotateLeft 1 + e2 ∧
      lowHalf (newCursorJ (newCursorJ c e1) e2) = lowHalf c

/-- R166: two runs with the same `T` and `cursor_i` whose `cursor_j` differ only in bits [31:16], the
lowest differing bit being k: their j0 agree before step m and differ at step m for some m with
1 ≤ m ≤ 32 - k, and before step m they have the same table, `cursor_i` and bytes. -/
def Obligations.EntropyReachesIndexWithinSixteenSteps : Prop :=
  ∀ (g h : Generator) (k : Nat),
    g.table = h.table → g.cursorI = h.cursorI → 16 ≤ k → k ≤ 31 →
    (∀ b, b < k → g.cursorJ.getLsbD b = h.cursorJ.getLsbD b) →
    g.cursorJ.getLsbD k ≠ h.cursorJ.getLsbD k →
    ∃ m, 1 ≤ m ∧ m ≤ 32 - k ∧
      (∀ n, 1 ≤ n → n < m →
        lowByte (g.discardSteps n).cursorJ = lowByte (h.discardSteps n).cursorJ) ∧
      lowByte (g.discardSteps m).cursorJ ≠ lowByte (h.discardSteps m).cursorJ ∧
      (∀ n, n < m → (g.discardSteps n).table = (h.discardSteps n).table ∧
        (g.discardSteps n).cursorI = (h.discardSteps n).cursorI) ∧
      stream g (m - 1) = stream h (m - 1)

/-! The host. -/

/-- R55, R26 and R56: a host read of STATUS returns the fields of R26 at their bits, a read of FAULT_CMD
returns FAULT_CMD, and neither has a side effect. A host that waits for a busy bit (R233, R223, R226) goes on
exactly when that bit of STATUS is 0, and its reads change nothing. The form of that last clause is the
model's choice: a wait is one action of `hostQueue` (log entry 3, DESIGN CHOICE), and what its reads
return is not kept in `hostReads` (log entry 4, DESIGN CHOICE). -/
def Obligations.StatusReadsReturnTheFields : Prop :=
  (∀ (s : State) (k : Nat) (ts : List Turn), presents s k ts 0x000 .read →
    ∃ v : Word, step s = .next (accessDone s k ts [v]) ∧
      v.getLsbD 0 = s.ready ∧ v.getLsbD 1 = s.fault ∧
      (v.getLsbD 2 = true ↔ s.entReg ≠ none ∨ s.entPhase ≠ .idle) ∧
      (v.getLsbD 3 = true ↔ s.cmdFifo ≠ [] ∨ s.genPhase ≠ .idle) ∧
      (∀ b, b < 4 → v.getLsbD (4 + b) = s.cause.getLsbD b) ∧
      (v.getLsbD 8 = true ↔ s.faultPort = .ent) ∧ (∀ b, 9 ≤ b → v.getLsbD b = false)) ∧
  (∀ (s : State) (k : Nat) (ts : List Turn), presents s k ts 0x004 .read →
    step s = .next (accessDone s k ts [s.faultCmd])) ∧
  (∀ (s : State) (k : Nat) (ts : List Turn) (b : BusyBit),
    s.turns = .host k :: ts → s.hostQueue[k]? = some (.wait b) →
    let bit := match b with | .gen => 3 | .ent => 2
    ((statusWord s).getLsbD bit = true → step s = .next { s with turns := ts }) ∧
    ((statusWord s).getLsbD bit = false → step s = .next (accessDone s k ts [])))

/-- R57: a host write of w to CMD completes and is discarded while FAULT = 1, holds while the CMD FIFO
holds CMD_FIFO_DEPTH words, and otherwise appends w at the tail. -/
def Obligations.CmdWriteAppendsOrHolds : Prop :=
  ∀ (s : State) (k : Nat) (ts : List Turn) (w : Word), presents s k ts 0x008 (.write w) →
    (s.fault = true → step s = .next (accessDone s k ts [])) ∧
    (s.fault = false → s.cmdFifo.length = s.params.cmdFifoDepth →
      step s = .next { s with turns := ts }) ∧
    (s.fault = false → s.cmdFifo.length < s.params.cmdFifoDepth →
      step s = .next { accessDone s k ts [] with cmdFifo := s.cmdFifo ++ [w] })

/-- R58: a host write of w to ENT completes and is discarded while FAULT = 1, holds while `ent_full` =
1, and otherwise fills the register. -/
def Obligations.EntWriteFillsOrHolds : Prop :=
  ∀ (s : State) (k : Nat) (ts : List Turn) (w : Word), presents s k ts 0x00C (.write w) →
    (s.fault = true → step s = .next (accessDone s k ts [])) ∧
    (s.fault = false → s.entReg ≠ none → step s = .next { s with turns := ts }) ∧
    (s.fault = false → s.entReg = none →
      step s = .next { accessDone s k ts [] with entReg := some w })

/-- R59: a host read of OUT_DATA removes the head byte and returns it zero-extended, also after a
fault; it holds while the FIFO is empty. -/
def Obligations.OutDataReadPopsOrHolds : Prop :=
  ∀ (s : State) (k : Nat) (ts : List Turn), presents s k ts 0x010 .read →
    (∀ b rest, s.outFifo = b :: rest → ∃ v : Word, v.toNat = b.toNat ∧
      step s = .next { accessDone s k ts [v] with outFifo := rest }) ∧
    (s.outFifo = [] → step s = .next { s with turns := ts })

/-- R60: a host read of OUT_COUNT returns min(count, 0xFFFF_FFFF) and has no side effect. -/
def Obligations.OutCountReadReturnsOccupancy : Prop :=
  ∀ (s : State) (k : Nat) (ts : List Turn), presents s k ts 0x014 .read →
    ∃ v : Word, v.toNat = min s.outFifo.length 0xFFFFFFFF ∧
      step s = .next (accessDone s k ts [v])

/-- R61: a host write of w to the m-th word of the KEY window writes K[4m] to K[4m + 3] with the bytes
of w, the lowest byte first, also while FAULT = 1; every other key byte and every other state is
unchanged. -/
def Obligations.KeyWindowWriteStoresFourBytes : Prop :=
  ∀ (s : State) (k : Nat) (ts : List Turn) (m : Nat) (w : Word),
    4 * m + 3 < s.params.keyBufBytes → presents s k ts (0x100 + 4 * m) (.write w) →
    ∃ K : Memory, step s = .next { accessDone s k ts [] with key := K } ∧
      (∀ b, b < 4 → K.read (4 * m + b) = some (BitVec.ofNat 8 (w.toNat / 2 ^ (8 * b)))) ∧
      (∀ x, x < 4 * m ∨ 4 * m + 3 < x → K.read x = s.key.read x)

/-- R62: a host read of any KEY window offset returns 0, and so do CMD and ENT, the other write-only
registers (R54); a write to a read-only register is ignored (R54). None of these has an effect. -/
def Obligations.WrongWayAccessesDoNothing : Prop :=
  ∀ (s : State) (k : Nat) (ts : List Turn) (off : Nat),
    (presents s k ts off .read → off % 4 = 0 →
      (off = 0x008 ∨ off = 0x00C ∨ (0x100 ≤ off ∧ off < 0x100 + s.params.keyBufBytes)) →
      step s = .next (accessDone s k ts [0])) ∧
    (∀ w, presents s k ts off (.write w) →
      (off = 0x000 ∨ off = 0x004 ∨ off = 0x010 ∨ off = 0x014) →
      step s = .next (accessDone s k ts []))

/-- R63: a host read of a reserved offset returns 0, and a host write to one is ignored; neither has a
side effect. -/
def Obligations.ReservedOffsetsReadZero : Prop :=
  ∀ (s : State) (k : Nat) (ts : List Turn) (off : Nat), off % 4 = 0 →
    ((0x018 ≤ off ∧ off < 0x100) ∨ 0x100 + s.params.keyBufBytes ≤ off) →
    (presents s k ts off .read → step s = .next (accessDone s k ts [0])) ∧
    (∀ w, presents s k ts off (.write w) → step s = .next (accessDone s k ts []))

/-- R64: a host access that is not 32 bits wide, or whose offset is not a multiple of 4, is refused by
name. -/
def Obligations.MisshapenAccessIsRefused : Prop :=
  ∀ (s : State) (k : Nat) (ts : List Turn) (a : HostAccess), s.turns = .host k :: ts →
    s.hostQueue[k]? = some (.access a) → s.params.hostBase ≤ a.addr →
    (a.width ≠ 32 ∨ (a.addr - s.params.hostBase) % 4 ≠ 0) → step s = .refused .hostAccessShape

/-- The model's choice (log entry 11, DESIGN CHOICE; R54 and R69 leave what stands below HOST_BASE to
the platform): an access below HOST_BASE is refused by name. -/
def Obligations.AccessBelowWindowIsRefused : Prop :=
  ∀ (s : State) (k : Nat) (ts : List Turn) (a : HostAccess), s.turns = .host k :: ts →
    s.hostQueue[k]? = some (.access a) → a.addr < s.params.hostBase → step s = .refused .outsideHostWindow

/-- R39: no host step reads `T`, `cursor_i` or `cursor_j`: with another generator state, a turn of the
host does and returns the same. -/
def Obligations.HostCannotSeeTheGenerator : Prop :=
  ∀ (s : State) (g : Generator) (k : Nat), currentTurn s = .host k →
    step { s with gen := g } = mapNext (fun t => { t with gen := g }) (step s)

/-! Power-on reset. -/

/-- R220, R40: a power-on reset is possible in every state; STATUS and FAULT_CMD are 0, the three ports
and FIFOs are empty, no key byte has a value, both phases are IDLE. That the parameters and the outside
world (`turns`, `hostQueue`, `hostReads`) stay is the model's reading (log entry 10, DEDUCED: R220 does
not list them). (What `T` and the cursors hold then is the model's choice, log entry 6, and not
stated.) -/
def Obligations.PowerOnResetClearsTheCore : Prop :=
  ∀ (s : State) (ts : List Turn), s.turns = .por :: ts →
    ∃ t, step s = .next t ∧ statusWord t = 0 ∧ t.faultCmd = 0 ∧ t.outFifo = [] ∧ t.cmdFifo = [] ∧
      t.entReg = none ∧ (∀ x, t.key.read x = none) ∧ t.genPhase = .idle ∧ t.entPhase = .idle ∧
      t.ready = false ∧ t.fault = false ∧ t.cause = 0 ∧ t.faultPort = .cmd ∧
      t.params = s.params ∧ t.turns = ts ∧ t.hostQueue = s.hostQueue ∧ t.hostReads = s.hostReads

/-- R221: no state survives a power-on reset: two cores with the same parameters and the same outside
world (which the model keeps, log entry 10) agree after one in every field but `gen`, to which R40
gives no value (log entry 6), and `port`, the model's own (log entry 8). -/
def Obligations.NothingSurvivesPowerOnReset : Prop :=
  ∀ s s' : State, currentTurn s = .por → s.params = s'.params → s.turns = s'.turns →
    s.turnCount = s'.turnCount → s.hostQueue = s'.hostQueue → s.hostReads = s'.hostReads →
    ∃ t t', step s = .next t ∧ step s' = .next t' ∧ t' = { t with gen := t'.gen, port := t'.port }

/-! The whole machine. -/

/-- R25: which agent writes which state, over every step: the entropy agent never writes `T`,
`cursor_i`, READY, the output FIFO, the CMD FIFO, K or `gen_phase`; the generator agent never writes
the ENT register, K or `ent_phase`; the host writes none of the generator state, READY, the fault
fields and the phases; and only the host's turns change its own lists (a power-on reset keeps them by
log entry 10). And which agent reads which state: the entropy agent never reads `T`, `cursor_i` (R169),
K, the output FIFO or the CMD FIFO, and the generator agent never reads the ENT register: with other
contents there, the turn does the same. (That the host never reads the generator state is
HostCannotSeeTheGenerator.) -/
def Obligations.AgentsWriteOnlyTheirOwnState : Prop :=
  (∀ s t : State, step s = .next t →
    (currentTurn s = .entropy →
      t.gen.table = s.gen.table ∧ t.gen.cursorI = s.gen.cursorI ∧ t.ready = s.ready ∧
      t.outFifo = s.outFifo ∧ t.cmdFifo = s.cmdFifo ∧ t.key = s.key ∧ t.genPhase = s.genPhase ∧
      t.hostQueue = s.hostQueue ∧ t.hostReads = s.hostReads) ∧
    (currentTurn s = .generator →
      t.entReg = s.entReg ∧ t.key = s.key ∧ t.entPhase = s.entPhase ∧
      t.hostQueue = s.hostQueue ∧ t.hostReads = s.hostReads) ∧
    (∀ k, currentTurn s = .host k →
      t.gen = s.gen ∧ t.ready = s.ready ∧ t.fault = s.fault ∧ t.cause = s.cause ∧
      t.faultPort = s.faultPort ∧ t.faultCmd = s.faultCmd ∧ t.genPhase = s.genPhase ∧
      t.entPhase = s.entPhase) ∧
    (currentTurn s = .por → t.hostQueue = s.hostQueue ∧ t.hostReads = s.hostReads)) ∧
  (∀ (s : State) (T : Table) (ci : Byte) (K : Memory) (out : List Byte) (cmds : List Word),
    currentTurn s = .entropy →
    let other := fun t : State =>
      { t with gen := { table := T, cursorI := ci, cursorJ := t.gen.cursorJ }
               key := K, outFifo := out, cmdFifo := cmds }
    step (other s) = mapNext other (step s)) ∧
  (∀ (s : State) (r : Option Word), currentTurn s = .generator →
    step { s with entReg := r } = mapNext (fun t => { t with entReg := r }) (step s))

/-- R27: READY rises only in a step in which the generator agent takes an INIT word, and only a
power-on reset clears it. -/
def Obligations.ReadyRisesOnlyByInit : Prop :=
  ∀ s t : State, step s = .next t →
    (s.ready = true → t.ready = false → currentTurn s = .por) ∧
    (s.ready = false → t.ready = true →
      currentTurn s = .generator ∧ s.genPhase = .idle ∧ t.fault = false ∧
      ∃ w ws L, s.cmdFifo = w :: ws ∧ decode w = .instr (.init L))

/-- R148, R30, R59: each step leaves the output FIFO, or appends one byte at its tail (a turn of the
generator agent), or removes its head (a turn of the host, to which the byte is returned), or is a
power-on reset. -/
def Obligations.OutputFifoKeepsOrder : Prop :=
  ∀ s t : State, step s = .next t →
    t.outFifo = s.outFifo ∨
    (currentTurn s = .generator ∧ ∃ b, t.outFifo = s.outFifo ++ [b]) ∨
    (∃ k b, currentTurn s = .host k ∧ s.outFifo = b :: t.outFifo ∧
      t.hostReads = s.hostReads ++ [b.setWidth 32]) ∨
    (currentTurn s = .por ∧ t.outFifo = [])

/-- R72, R73: a turn of an agent changes nothing exactly when the table of its steps has none enabled. -/
def Obligations.AgentsActExactlyWhenEnabled : Prop :=
  (∀ s : State, generatorTurn s = .next s ↔ generatorEnabled s = false) ∧
  (∀ s : State, entropyTurn s = .next s ↔ entropyEnabled s = false)

/-- R233: at a quiescent point without a fault GEN_BUSY = 0 and ENT_BUSY = 0, and a run that R229 or
R230 sticks never becomes quiescent. R229: a store holds on a full output FIFO and the host, which acts
in order, waits for GEN_BUSY = 0 first. R230: the host reads OUT_DATA first, no byte is there, and the
generator agent is idle with no word waiting, or the core has faulted. Then every order of the agents'
and the host's turns leaves the host where it is. (That a store that holds counts as held is log entry
13, DEDUCED.) -/
def Obligations.QuiescentCoreIsNotBusy : Prop :=
  (∀ s : State, quiescent s = true → s.fault = false →
    (statusWord s).getLsbD 2 = false ∧ (statusWord s).getLsbD 3 = false) ∧
  (∀ (s : State) (rest : List HostAction) (order ts : List Turn),
    (((∃ rem a seen n, s.fault = false ∧ s.genPhase = .prgaLoaded rem a seen ∧
        s.params.outFifoDepth = .bounded n ∧ s.outFifo.length = n) ∧
      s.hostQueue = .wait .gen :: rest) ∨
    ((s.fault = true ∨ (s.genPhase = .idle ∧ s.cmdFifo = [])) ∧ s.outFifo = [] ∧
      s.hostQueue =
        .access { addr := s.params.hostBase + 0x010, width := 32, op := .read } :: rest)) →
    (∀ u ∈ order, u = .generator ∨ u = .entropy ∨ u = .host 0) → s.turns = order ++ ts →
    ∃ t, runSteps order.length s = .next t ∧ t.hostQueue = s.hostQueue ∧ quiescent t = false ∧
      endState order.length s = none)

/-- R226: while no ENT word exists and the host presents none, every step keeps it so, and no step can
fault RESET_OVERLAP (code 7). -/
def Obligations.ExclusivityProtocolPreventsOverlap : Prop :=
  ∀ s t : State, noEntropyWork s → step s = .next t →
    noEntropyWork t ∧ (s.fault = false → t.fault = true → t.cause ≠ 7)

/-- The invariant of the machine (10_state.md R21, R26, R29, R30, R31, R33 to R35; 00_scope.md R6) is
kept by every step from every state that meets it, and no step changes the parameters. -/
def Obligations.StepKeepsInvariant : Prop :=
  ∀ s t : State, MachineInv s → step s = .next t → MachineInv t ∧ t.params = s.params

/-- The state after a power-on reset meets the invariant, from every state and for every parameters
that R6 allows; so does `State.reset` with any such parameters, and with the ones it carries (the
model's choice, log entry 5). -/
def Obligations.ResetMeetsInvariant : Prop :=
  (∀ s : State, s.params.wf → MachineInv (powerOnReset s)) ∧
  (∀ p : Params, p.wf → MachineInv { State.reset with params := p }) ∧ MachineInv State.reset

/-- R233: a run has at most one end state; in it the host has nothing left to do and the core is
quiescent, and every later turn of an agent or the host leaves it; the host then reads STATUS, FAULT_CMD
and the bytes of the output FIFO, in order. What is quiescent, and so which point is the first, rests on
the model's reading of R233 that a store which holds counts as held (log entry 13, DEDUCED). -/
def Obligations.EndStateIsUniqueAndLasting : Prop :=
  (∀ (s t t' : State) (m n : Nat), endState m s = some t → endState n s = some t' → t = t') ∧
  (∀ (s t : State) (n : Nat), endState n s = some t →
    t.hostQueue = [] ∧ quiescent t = true ∧
    (∃ m, m ≤ n ∧ runSteps m s = .next t ∧
      ∀ l u, l < m → runSteps l s = .next u → u.hostQueue ≠ [] ∨ quiescent u = false) ∧
    (∀ u ts, u ≠ .por → t.turns = u :: ts → step t = .next { t with turns := ts }) ∧
    (∀ ts, runSteps (2 + t.outFifo.length) { t with
          hostQueue := endReads t.params t.outFifo.length
          turns := List.replicate (2 + t.outFifo.length) (.host 0) ++ ts } =
      .next { t with
        turns := ts, outFifo := []
        hostReads := t.hostReads ++ (endView t).status :: (endView t).faultCmd ::
          (endView t).bytes.map (fun b => b.setWidth 32) }))
end

