-- ==== Sys2Proof/Laws/Bits.lean ====
section
/-! SUPPORT. The laws of the bit operations (00_scope.md R8 to R11): rotation by one, the halves of a word. -/

namespace Sys2Proof.Machine

/-- R10 for `rotl_32(v, 1)`: the library's rotation. -/
theorem rotl_word (v : Word) : rotl v 1 = v.rotateLeft 1 := rfl

/-- R10 for `rotl_16(v, 1)`: the library's rotation. -/
theorem rotl_half (v : Half) : rotl v 1 = v.rotateLeft 1 := rfl

/-- R10: "Bit N-1 of v moves to bit s-1", the others one place up. -/
theorem getLsbD_rotl_one {n : Nat} (v : BitVec (n + 1)) (k : Nat) :
    (rotl v 1).getLsbD k =
      (decide (k < n + 1) && if k = 0 then v.getLsbD n else v.getLsbD (k - 1)) := by
  have hn : n + 1 - 1 = n := rfl
  unfold rotl
  rw [BitVec.getLsbD_or, BitVec.getLsbD_shiftLeft, BitVec.getLsbD_ushiftRight, hn]
  rcases Nat.eq_zero_or_pos k with rfl | hk
  · simp
  · have hk1 : ¬ k < 1 := by omega
    have hk0 : k ≠ 0 := by omega
    have hz : v.getLsbD (n + k) = false := BitVec.getLsbD_of_ge _ _ (by omega)
    simp [hk1, hk0, hz]

/-- Each bit of `{h, l}` (R11). -/
theorem getLsbD_concat (h l : Half) (k : Nat) :
    (concat h l).getLsbD k = if k < 16 then l.getLsbD k else h.getLsbD (k - 16) :=
  BitVec.getLsbD_append

/-- Each bit of `x[31:16]` (R8). -/
theorem getLsbD_highHalf (x : Word) (k : Nat) :
    (highHalf x).getLsbD k = (decide (k < 16) && x.getLsbD (16 + k)) :=
  BitVec.getLsbD_extractLsb' _ _ _ _

/-- Each bit of `x[15:0]` (R8). -/
theorem getLsbD_lowHalf (x : Word) (k : Nat) :
    (lowHalf x).getLsbD k = (decide (k < 16) && x.getLsbD k) := by
  rw [lowHalf, BitVec.getLsbD_extractLsb', Nat.zero_add]

/-- Each bit of `x[7:0]` (R8). -/
theorem getLsbD_lowByte (x : Word) (k : Nat) :
    (lowByte x).getLsbD k = (decide (k < 8) && x.getLsbD k) := by
  rw [lowByte, BitVec.getLsbD_extractLsb', Nat.zero_add]

@[simp] theorem highHalf_concat (h l : Half) : highHalf (concat h l) = h := by
  refine BitVec.eq_of_getLsbD_eq fun k hk => ?_
  rw [getLsbD_highHalf, getLsbD_concat, if_neg (by omega), Nat.add_sub_cancel_left]
  simp [hk]

@[simp] theorem lowHalf_concat (h l : Half) : lowHalf (concat h l) = l := by
  refine BitVec.eq_of_getLsbD_eq fun k hk => ?_
  rw [getLsbD_lowHalf, getLsbD_concat, if_pos hk]
  simp [hk]

theorem concat_halves (x : Word) : concat (highHalf x) (lowHalf x) = x := by
  refine BitVec.eq_of_getLsbD_eq fun k hk => ?_
  rw [getLsbD_concat]
  by_cases h : k < 16
  · rw [if_pos h, getLsbD_lowHalf]
    simp [h]
  · rw [if_neg h, getLsbD_highHalf, Nat.add_sub_cancel' (by omega)]
    simp only [show k - 16 < 16 by omega, decide_true, Bool.true_and]

/-- The high half that an ADD_ENTROPY stores (R160). -/
@[simp] theorem highHalf_newCursorJ (seen : Word) (e : Half) :
    highHalf (newCursorJ seen e) = rotl (highHalf seen) hiRot + e := highHalf_concat _ _

/-- An ADD_ENTROPY stores the low half it loaded (R160, R162). -/
@[simp] theorem lowHalf_newCursorJ (seen : Word) (e : Half) :
    lowHalf (newCursorJ seen e) = lowHalf seen := lowHalf_concat _ _

end Sys2Proof.Machine
end

