-- ==== Sys2Proof/Laws/State.lean ====
section
/-! SUPPORT. One lemma per field for each named update of the state, true by `rfl`, so that no proof unfolds an update. -/

namespace Sys2Proof.Machine

section
variable (v : Word) (s : State)

@[simp] theorem atomicStore_params : (atomicStore v s).params = s.params := rfl
@[simp] theorem atomicStore_gen : (atomicStore v s).gen = { s.gen with cursorJ := v } := rfl
@[simp] theorem atomicStore_ready : (atomicStore v s).ready = s.ready := rfl
@[simp] theorem atomicStore_fault : (atomicStore v s).fault = s.fault := rfl
@[simp] theorem atomicStore_cause : (atomicStore v s).cause = s.cause := rfl
@[simp] theorem atomicStore_faultPort : (atomicStore v s).faultPort = s.faultPort := rfl
@[simp] theorem atomicStore_faultCmd : (atomicStore v s).faultCmd = s.faultCmd := rfl
@[simp] theorem atomicStore_outFifo : (atomicStore v s).outFifo = s.outFifo := rfl
@[simp] theorem atomicStore_cmdFifo : (atomicStore v s).cmdFifo = s.cmdFifo := rfl
@[simp] theorem atomicStore_entReg : (atomicStore v s).entReg = s.entReg := rfl
@[simp] theorem atomicStore_key : (atomicStore v s).key = s.key := rfl
@[simp] theorem atomicStore_genPhase : (atomicStore v s).genPhase = s.genPhase := rfl
@[simp] theorem atomicStore_entPhase : (atomicStore v s).entPhase = s.entPhase := rfl
@[simp] theorem atomicStore_port : (atomicStore v s).port = s.port := rfl
@[simp] theorem atomicStore_turns : (atomicStore v s).turns = s.turns := rfl
@[simp] theorem atomicStore_turnCount : (atomicStore v s).turnCount = s.turnCount := rfl
@[simp] theorem atomicStore_hostQueue : (atomicStore v s).hostQueue = s.hostQueue := rfl
@[simp] theorem atomicStore_hostReads : (atomicStore v s).hostReads = s.hostReads := rfl

end

section
variable (b : Byte) (s : State)

@[simp] theorem emit_params : (emit b s).params = s.params := rfl
@[simp] theorem emit_gen : (emit b s).gen = s.gen := rfl
@[simp] theorem emit_ready : (emit b s).ready = s.ready := rfl
@[simp] theorem emit_fault : (emit b s).fault = s.fault := rfl
@[simp] theorem emit_cause : (emit b s).cause = s.cause := rfl
@[simp] theorem emit_faultPort : (emit b s).faultPort = s.faultPort := rfl
@[simp] theorem emit_faultCmd : (emit b s).faultCmd = s.faultCmd := rfl
@[simp] theorem emit_outFifo : (emit b s).outFifo = s.outFifo ++ [b] := rfl
@[simp] theorem emit_cmdFifo : (emit b s).cmdFifo = s.cmdFifo := rfl
@[simp] theorem emit_entReg : (emit b s).entReg = s.entReg := rfl
@[simp] theorem emit_key : (emit b s).key = s.key := rfl
@[simp] theorem emit_genPhase : (emit b s).genPhase = s.genPhase := rfl
@[simp] theorem emit_entPhase : (emit b s).entPhase = s.entPhase := rfl
@[simp] theorem emit_port : (emit b s).port = s.port := rfl
@[simp] theorem emit_turns : (emit b s).turns = s.turns := rfl
@[simp] theorem emit_turnCount : (emit b s).turnCount = s.turnCount := rfl
@[simp] theorem emit_hostQueue : (emit b s).hostQueue = s.hostQueue := rfl
@[simp] theorem emit_hostReads : (emit b s).hostReads = s.hostReads := rfl

end

section
variable (p : Port) (s : State)

@[simp] theorem onPort_params : (onPort p s).params = s.params := rfl
@[simp] theorem onPort_gen : (onPort p s).gen = s.gen := rfl
@[simp] theorem onPort_ready : (onPort p s).ready = s.ready := rfl
@[simp] theorem onPort_fault : (onPort p s).fault = s.fault := rfl
@[simp] theorem onPort_cause : (onPort p s).cause = s.cause := rfl
@[simp] theorem onPort_faultPort : (onPort p s).faultPort = s.faultPort := rfl
@[simp] theorem onPort_faultCmd : (onPort p s).faultCmd = s.faultCmd := rfl
@[simp] theorem onPort_outFifo : (onPort p s).outFifo = s.outFifo := rfl
@[simp] theorem onPort_cmdFifo : (onPort p s).cmdFifo = s.cmdFifo := rfl
@[simp] theorem onPort_entReg : (onPort p s).entReg = s.entReg := rfl
@[simp] theorem onPort_key : (onPort p s).key = s.key := rfl
@[simp] theorem onPort_genPhase : (onPort p s).genPhase = s.genPhase := rfl
@[simp] theorem onPort_entPhase : (onPort p s).entPhase = s.entPhase := rfl
@[simp] theorem onPort_port : (onPort p s).port = p := rfl
@[simp] theorem onPort_turns : (onPort p s).turns = s.turns := rfl
@[simp] theorem onPort_turnCount : (onPort p s).turnCount = s.turnCount := rfl
@[simp] theorem onPort_hostQueue : (onPort p s).hostQueue = s.hostQueue := rfl
@[simp] theorem onPort_hostReads : (onPort p s).hostReads = s.hostReads := rfl

end

section
variable (c : Cause) (p : Port) (w : Word) (s : State)

@[simp] theorem raiseFault_params : (raiseFault c p w s).params = s.params := rfl
@[simp] theorem raiseFault_gen : (raiseFault c p w s).gen = s.gen := rfl
@[simp] theorem raiseFault_ready : (raiseFault c p w s).ready = s.ready := rfl
@[simp] theorem raiseFault_fault : (raiseFault c p w s).fault = true := rfl
@[simp] theorem raiseFault_cause : (raiseFault c p w s).cause = c.code := rfl
@[simp] theorem raiseFault_faultPort : (raiseFault c p w s).faultPort = p := rfl
@[simp] theorem raiseFault_faultCmd : (raiseFault c p w s).faultCmd = w := rfl
@[simp] theorem raiseFault_outFifo : (raiseFault c p w s).outFifo = s.outFifo := rfl
@[simp] theorem raiseFault_cmdFifo : (raiseFault c p w s).cmdFifo = s.cmdFifo := rfl
@[simp] theorem raiseFault_entReg : (raiseFault c p w s).entReg = s.entReg := rfl
@[simp] theorem raiseFault_key : (raiseFault c p w s).key = s.key := rfl
@[simp] theorem raiseFault_genPhase : (raiseFault c p w s).genPhase = s.genPhase := rfl
@[simp] theorem raiseFault_entPhase : (raiseFault c p w s).entPhase = s.entPhase := rfl
@[simp] theorem raiseFault_port : (raiseFault c p w s).port = s.port := rfl
@[simp] theorem raiseFault_turns : (raiseFault c p w s).turns = s.turns := rfl
@[simp] theorem raiseFault_turnCount : (raiseFault c p w s).turnCount = s.turnCount := rfl
@[simp] theorem raiseFault_hostQueue : (raiseFault c p w s).hostQueue = s.hostQueue := rfl
@[simp] theorem raiseFault_hostReads : (raiseFault c p w s).hostReads = s.hostReads := rfl

end

section
variable (rem : BitVec 28) (s : State)

@[simp] theorem prgaLoad_params : (prgaLoad rem s).params = s.params := rfl
@[simp] theorem prgaLoad_gen : (prgaLoad rem s).gen = s.gen.advance := rfl
@[simp] theorem prgaLoad_ready : (prgaLoad rem s).ready = s.ready := rfl
@[simp] theorem prgaLoad_fault : (prgaLoad rem s).fault = s.fault := rfl
@[simp] theorem prgaLoad_cause : (prgaLoad rem s).cause = s.cause := rfl
@[simp] theorem prgaLoad_faultPort : (prgaLoad rem s).faultPort = s.faultPort := rfl
@[simp] theorem prgaLoad_faultCmd : (prgaLoad rem s).faultCmd = s.faultCmd := rfl
@[simp] theorem prgaLoad_outFifo : (prgaLoad rem s).outFifo = s.outFifo := rfl
@[simp] theorem prgaLoad_cmdFifo : (prgaLoad rem s).cmdFifo = s.cmdFifo := rfl
@[simp] theorem prgaLoad_entReg : (prgaLoad rem s).entReg = s.entReg := rfl
@[simp] theorem prgaLoad_key : (prgaLoad rem s).key = s.key := rfl
@[simp] theorem prgaLoad_genPhase : (prgaLoad rem s).genPhase = .prgaLoaded rem s.gen.advance.tableByte s.gen.cursorJ := rfl
@[simp] theorem prgaLoad_entPhase : (prgaLoad rem s).entPhase = s.entPhase := rfl
@[simp] theorem prgaLoad_port : (prgaLoad rem s).port = s.port := rfl
@[simp] theorem prgaLoad_turns : (prgaLoad rem s).turns = s.turns := rfl
@[simp] theorem prgaLoad_turnCount : (prgaLoad rem s).turnCount = s.turnCount := rfl
@[simp] theorem prgaLoad_hostQueue : (prgaLoad rem s).hostQueue = s.hostQueue := rfl
@[simp] theorem prgaLoad_hostReads : (prgaLoad rem s).hostReads = s.hostReads := rfl

end

section
variable (rem : BitVec 28) (a : Byte) (seen : Word) (s : State)

@[simp] theorem prgaStore_params : (prgaStore rem a seen s).params = s.params := rfl
@[simp] theorem prgaStore_gen : (prgaStore rem a seen s).gen = s.gen.store a seen := rfl
@[simp] theorem prgaStore_ready : (prgaStore rem a seen s).ready = s.ready := rfl
@[simp] theorem prgaStore_fault : (prgaStore rem a seen s).fault = s.fault := rfl
@[simp] theorem prgaStore_cause : (prgaStore rem a seen s).cause = s.cause := rfl
@[simp] theorem prgaStore_faultPort : (prgaStore rem a seen s).faultPort = s.faultPort := rfl
@[simp] theorem prgaStore_faultCmd : (prgaStore rem a seen s).faultCmd = s.faultCmd := rfl
@[simp] theorem prgaStore_outFifo : (prgaStore rem a seen s).outFifo = s.outFifo ++ [s.gen.outputByte a seen] := rfl
@[simp] theorem prgaStore_cmdFifo : (prgaStore rem a seen s).cmdFifo = s.cmdFifo := rfl
@[simp] theorem prgaStore_entReg : (prgaStore rem a seen s).entReg = s.entReg := rfl
@[simp] theorem prgaStore_key : (prgaStore rem a seen s).key = s.key := rfl
@[simp] theorem prgaStore_genPhase : (prgaStore rem a seen s).genPhase = phaseAfterByte rem := rfl
@[simp] theorem prgaStore_entPhase : (prgaStore rem a seen s).entPhase = s.entPhase := rfl
@[simp] theorem prgaStore_port : (prgaStore rem a seen s).port = s.port := rfl
@[simp] theorem prgaStore_turns : (prgaStore rem a seen s).turns = s.turns := rfl
@[simp] theorem prgaStore_turnCount : (prgaStore rem a seen s).turnCount = s.turnCount := rfl
@[simp] theorem prgaStore_hostQueue : (prgaStore rem a seen s).hostQueue = s.hostQueue := rfl
@[simp] theorem prgaStore_hostReads : (prgaStore rem a seen s).hostReads = s.hostReads := rfl

end

section
variable (e : Half) (seen : Word) (s : State)

@[simp] theorem cmdEntropyStore_params : (cmdEntropyStore e seen s).params = s.params := rfl
@[simp] theorem cmdEntropyStore_gen : (cmdEntropyStore e seen s).gen = { s.gen with cursorJ := newCursorJ seen e } := rfl
@[simp] theorem cmdEntropyStore_ready : (cmdEntropyStore e seen s).ready = s.ready := rfl
@[simp] theorem cmdEntropyStore_fault : (cmdEntropyStore e seen s).fault = s.fault := rfl
@[simp] theorem cmdEntropyStore_cause : (cmdEntropyStore e seen s).cause = s.cause := rfl
@[simp] theorem cmdEntropyStore_faultPort : (cmdEntropyStore e seen s).faultPort = s.faultPort := rfl
@[simp] theorem cmdEntropyStore_faultCmd : (cmdEntropyStore e seen s).faultCmd = s.faultCmd := rfl
@[simp] theorem cmdEntropyStore_outFifo : (cmdEntropyStore e seen s).outFifo = s.outFifo := rfl
@[simp] theorem cmdEntropyStore_cmdFifo : (cmdEntropyStore e seen s).cmdFifo = s.cmdFifo := rfl
@[simp] theorem cmdEntropyStore_entReg : (cmdEntropyStore e seen s).entReg = s.entReg := rfl
@[simp] theorem cmdEntropyStore_key : (cmdEntropyStore e seen s).key = s.key := rfl
@[simp] theorem cmdEntropyStore_genPhase : (cmdEntropyStore e seen s).genPhase = .idle := rfl
@[simp] theorem cmdEntropyStore_entPhase : (cmdEntropyStore e seen s).entPhase = s.entPhase := rfl
@[simp] theorem cmdEntropyStore_port : (cmdEntropyStore e seen s).port = s.port := rfl
@[simp] theorem cmdEntropyStore_turns : (cmdEntropyStore e seen s).turns = s.turns := rfl
@[simp] theorem cmdEntropyStore_turnCount : (cmdEntropyStore e seen s).turnCount = s.turnCount := rfl
@[simp] theorem cmdEntropyStore_hostQueue : (cmdEntropyStore e seen s).hostQueue = s.hostQueue := rfl
@[simp] theorem cmdEntropyStore_hostReads : (cmdEntropyStore e seen s).hostReads = s.hostReads := rfl

end

section
variable (e : Half) (seen : Word) (s : State)

@[simp] theorem entEntropyStore_params : (entEntropyStore e seen s).params = s.params := rfl
@[simp] theorem entEntropyStore_gen : (entEntropyStore e seen s).gen = { s.gen with cursorJ := newCursorJ seen e } := rfl
@[simp] theorem entEntropyStore_ready : (entEntropyStore e seen s).ready = s.ready := rfl
@[simp] theorem entEntropyStore_fault : (entEntropyStore e seen s).fault = s.fault := rfl
@[simp] theorem entEntropyStore_cause : (entEntropyStore e seen s).cause = s.cause := rfl
@[simp] theorem entEntropyStore_faultPort : (entEntropyStore e seen s).faultPort = s.faultPort := rfl
@[simp] theorem entEntropyStore_faultCmd : (entEntropyStore e seen s).faultCmd = s.faultCmd := rfl
@[simp] theorem entEntropyStore_outFifo : (entEntropyStore e seen s).outFifo = s.outFifo := rfl
@[simp] theorem entEntropyStore_cmdFifo : (entEntropyStore e seen s).cmdFifo = s.cmdFifo := rfl
@[simp] theorem entEntropyStore_entReg : (entEntropyStore e seen s).entReg = s.entReg := rfl
@[simp] theorem entEntropyStore_key : (entEntropyStore e seen s).key = s.key := rfl
@[simp] theorem entEntropyStore_genPhase : (entEntropyStore e seen s).genPhase = s.genPhase := rfl
@[simp] theorem entEntropyStore_entPhase : (entEntropyStore e seen s).entPhase = .idle := rfl
@[simp] theorem entEntropyStore_port : (entEntropyStore e seen s).port = s.port := rfl
@[simp] theorem entEntropyStore_turns : (entEntropyStore e seen s).turns = s.turns := rfl
@[simp] theorem entEntropyStore_turnCount : (entEntropyStore e seen s).turnCount = s.turnCount := rfl
@[simp] theorem entEntropyStore_hostQueue : (entEntropyStore e seen s).hostQueue = s.hostQueue := rfl
@[simp] theorem entEntropyStore_hostReads : (entEntropyStore e seen s).hostReads = s.hostReads := rfl

end

section
variable (s : State)

@[simp] theorem powerOnReset_params : (powerOnReset s).params = s.params := rfl
@[simp] theorem powerOnReset_gen : (powerOnReset s).gen = Generator.unspecified := rfl
@[simp] theorem powerOnReset_ready : (powerOnReset s).ready = false := rfl
@[simp] theorem powerOnReset_fault : (powerOnReset s).fault = false := rfl
@[simp] theorem powerOnReset_cause : (powerOnReset s).cause = 0 := rfl
@[simp] theorem powerOnReset_faultPort : (powerOnReset s).faultPort = .cmd := rfl
@[simp] theorem powerOnReset_faultCmd : (powerOnReset s).faultCmd = 0 := rfl
@[simp] theorem powerOnReset_outFifo : (powerOnReset s).outFifo = [] := rfl
@[simp] theorem powerOnReset_cmdFifo : (powerOnReset s).cmdFifo = [] := rfl
@[simp] theorem powerOnReset_entReg : (powerOnReset s).entReg = none := rfl
@[simp] theorem powerOnReset_key : (powerOnReset s).key = [] := rfl
@[simp] theorem powerOnReset_genPhase : (powerOnReset s).genPhase = .idle := rfl
@[simp] theorem powerOnReset_entPhase : (powerOnReset s).entPhase = .idle := rfl
@[simp] theorem powerOnReset_port : (powerOnReset s).port = .cmd := rfl
@[simp] theorem powerOnReset_turns : (powerOnReset s).turns = s.turns := rfl
@[simp] theorem powerOnReset_turnCount : (powerOnReset s).turnCount = s.turnCount := rfl
@[simp] theorem powerOnReset_hostQueue : (powerOnReset s).hostQueue = s.hostQueue := rfl
@[simp] theorem powerOnReset_hostReads : (powerOnReset s).hostReads = s.hostReads := rfl

end

section
variable (s : State)

@[simp] theorem turnTaken_params : (turnTaken s).params = s.params := by unfold turnTaken; split <;> rfl
@[simp] theorem turnTaken_gen : (turnTaken s).gen = s.gen := by unfold turnTaken; split <;> rfl
@[simp] theorem turnTaken_ready : (turnTaken s).ready = s.ready := by unfold turnTaken; split <;> rfl
@[simp] theorem turnTaken_fault : (turnTaken s).fault = s.fault := by unfold turnTaken; split <;> rfl
@[simp] theorem turnTaken_cause : (turnTaken s).cause = s.cause := by unfold turnTaken; split <;> rfl
@[simp] theorem turnTaken_faultPort : (turnTaken s).faultPort = s.faultPort := by unfold turnTaken; split <;> rfl
@[simp] theorem turnTaken_faultCmd : (turnTaken s).faultCmd = s.faultCmd := by unfold turnTaken; split <;> rfl
@[simp] theorem turnTaken_outFifo : (turnTaken s).outFifo = s.outFifo := by unfold turnTaken; split <;> rfl
@[simp] theorem turnTaken_cmdFifo : (turnTaken s).cmdFifo = s.cmdFifo := by unfold turnTaken; split <;> rfl
@[simp] theorem turnTaken_entReg : (turnTaken s).entReg = s.entReg := by unfold turnTaken; split <;> rfl
@[simp] theorem turnTaken_key : (turnTaken s).key = s.key := by unfold turnTaken; split <;> rfl
@[simp] theorem turnTaken_genPhase : (turnTaken s).genPhase = s.genPhase := by unfold turnTaken; split <;> rfl
@[simp] theorem turnTaken_entPhase : (turnTaken s).entPhase = s.entPhase := by unfold turnTaken; split <;> rfl
@[simp] theorem turnTaken_port : (turnTaken s).port = s.port := by unfold turnTaken; split <;> rfl
@[simp] theorem turnTaken_hostQueue : (turnTaken s).hostQueue = s.hostQueue := by unfold turnTaken; split <;> rfl
@[simp] theorem turnTaken_hostReads : (turnTaken s).hostReads = s.hostReads := by unfold turnTaken; split <;> rfl

end

end Sys2Proof.Machine
end

