-- ==== Sys2Proof/Laws/Exec.lean ====
section
/-! SUPPORT. What the checks, the four meanings and the turns of the agents can answer: one inversion lemma each. -/

namespace Sys2Proof.Machine

section
variable {i : Instr} {s t : State} {body : State → Host.Outcome State Fault Refusal}

@[simp] theorem checked_some (c : Cause) :
    checked i (some c) s body = .next (raiseFault c s.port (encode i) s) := rfl

@[simp] theorem checked_none : checked i none s body = body s := rfl

/-- A command takes the fault that its checks found, or runs its body. -/
theorem checked_cases {found : Option Cause} {o : Host.Outcome State Fault Refusal}
    (h : checked i found s body = o) :
    (∃ c, found = some c ∧ o = .next (raiseFault c s.port (encode i) s)) ∨
      (found = none ∧ body s = o) := by
  cases found with
  | some c => exact .inl ⟨c, rfl, h.symm⟩
  | none => exact .inr ⟨rfl, h⟩

end

@[simp] theorem EntPhase.isLoaded_iff (p : EntPhase) : p.isLoaded = true ↔ p ≠ .idle := by
  cases p <;> simp [EntPhase.isLoaded]

@[simp] theorem GenPhase.isIdle_iff (p : GenPhase) : p.isIdle = true ↔ p = .idle := by
  cases p <;> simp [GenPhase.isIdle]

section
variable (s : State) (L : BitVec 28)

theorem portFault_eq_none : portFault s = none ↔ s.port = .cmd := by
  unfold portFault
  cases s.port <;> simp

theorem notReadyFault_eq_none : notReadyFault s = none ↔ s.ready = true := by
  unfold notReadyFault
  cases s.ready <;> simp

theorem emptyKeyFault_eq_none : emptyKeyFault L = none ↔ 1 ≤ keyLength L := by
  unfold emptyKeyFault
  split <;> simp <;> omega

theorem keyTooLongFault_eq_none :
    keyTooLongFault L s = none ↔ keyLength L ≤ s.params.keyBufBytes := by
  unfold keyTooLongFault
  split <;> simp <;> omega

theorem overlapFault_eq_none : overlapFault s = none ↔ s.entPhase = .idle := by
  unfold overlapFault
  simp

end

theorem orElse_eq_none_iff {α : Type} (x y : Option α) : (x <|> y) = none ↔ x = none ∧ y = none := by
  cases x <;> simp

/-- No check of INIT applies (R193). -/
theorem initChecks_eq_none (L : BitVec 28) (s : State) :
    (portFault s <|> emptyKeyFault L <|> keyTooLongFault L s <|> overlapFault s) = none ↔
      s.port = .cmd ∧ 1 ≤ keyLength L ∧ keyLength L ≤ s.params.keyBufBytes ∧
        s.entPhase = .idle := by
  simp only [orElse_eq_none_iff, portFault_eq_none, emptyKeyFault_eq_none,
    keyTooLongFault_eq_none, overlapFault_eq_none]

/-- No check of RESET applies (R193). -/
theorem resetChecks_eq_none (L : BitVec 28) (s : State) :
    (portFault s <|> notReadyFault s <|> emptyKeyFault L <|> keyTooLongFault L s <|>
        overlapFault s) = none ↔
      s.port = .cmd ∧ s.ready = true ∧ 1 ≤ keyLength L ∧
        keyLength L ≤ s.params.keyBufBytes ∧ s.entPhase = .idle := by
  simp only [orElse_eq_none_iff, portFault_eq_none, notReadyFault_eq_none, emptyKeyFault_eq_none,
    keyTooLongFault_eq_none, overlapFault_eq_none]

/-- No check of GENERATE applies (R193). -/
theorem generateChecks_eq_none (s : State) :
    (portFault s <|> notReadyFault s) = none ↔ s.port = .cmd ∧ s.ready = true := by
  simp only [orElse_eq_none_iff, portFault_eq_none, notReadyFault_eq_none]

/-- The body of INIT and RESET builds a generator state, or stops on a key byte without a value. -/
theorem rekey_cases {L : BitVec 28} {s : State} {o : Host.Outcome State Fault Refusal}
    (h : rekey L s = o) :
    (∃ g, keyedGenerator s.key (keyLength L) = some g ∧
        o = .next { s with gen := g, ready := true }) ∨
      (keyedGenerator s.key (keyLength L) = none ∧ o = .fault .unwrittenKeyByte) := by
  unfold rekey at h
  split at h
  · next g hg => exact .inl ⟨g, hg, h.symm⟩
  · next hg => exact .inr ⟨hg, h.symm⟩

theorem startGenerate_cases {n : BitVec 28} {s : State} {o : Host.Outcome State Fault Refusal}
    (h : startGenerate n s = o) :
    (n = 0 ∧ o = .next s) ∨ (n ≠ 0 ∧ o = .next { s with genPhase := .gen n }) := by
  unfold startGenerate isZeroCount at h
  split at h
  · next hn => exact .inl ⟨by simpa using hn, h.symm⟩
  · next hn => exact .inr ⟨by simpa using hn, h.symm⟩

theorem loadEntropy_cases {e : Half} {s : State} {o : Host.Outcome State Fault Refusal}
    (h : loadEntropy e s = o) :
    (s.port = .cmd ∧ o = .next { s with genPhase := .entLoaded e s.gen.cursorJ }) ∨
      (s.port = .ent ∧
        o = .next { s with entPhase := .loaded e s.gen.cursorJ (encode (.addEntropy e)) }) := by
  unfold loadEntropy at h
  split at h
  · next hp => exact .inl ⟨hp, h.symm⟩
  · next hp => exact .inr ⟨hp, h.symm⟩

/-- Everything the step that takes a decoded command can answer: it takes a fault of R193, or no
check applies and its own effect happens. -/
theorem exec_cases {i : Instr} {s : State} {o : Host.Outcome State Fault Refusal}
    (h : exec i s = o) :
    (∃ c, o = .next (raiseFault c s.port (encode i) s)) ∨
    (∃ L g, (i = .init L ∨ (i = .reset L ∧ s.ready = true)) ∧ s.port = .cmd ∧
        1 ≤ keyLength L ∧ keyLength L ≤ s.params.keyBufBytes ∧ s.entPhase = .idle ∧
        keyedGenerator s.key (keyLength L) = some g ∧
        o = .next { s with gen := g, ready := true }) ∨
    (∃ L, (i = .init L ∨ (i = .reset L ∧ s.ready = true)) ∧ s.port = .cmd ∧
        keyedGenerator s.key (keyLength L) = none ∧ o = .fault .unwrittenKeyByte) ∨
    (i = .generate 0 ∧ s.port = .cmd ∧ s.ready = true ∧ o = .next s) ∨
    (∃ n, i = .generate n ∧ n ≠ 0 ∧ s.port = .cmd ∧ s.ready = true ∧
        o = .next { s with genPhase := .gen n }) ∨
    (∃ e, i = .addEntropy e ∧ s.port = .cmd ∧ s.ready = true ∧
        o = .next { s with genPhase := .entLoaded e s.gen.cursorJ }) ∨
    (∃ e, i = .addEntropy e ∧ s.port = .ent ∧ s.ready = true ∧
        o = .next { s with entPhase := .loaded e s.gen.cursorJ (encode (.addEntropy e)) }) := by
  cases i with
  | init L =>
    rcases checked_cases (h : execInit L s = o) with ⟨c, -, hc⟩ | ⟨hn, hb⟩
    · exact .inl ⟨c, hc⟩
    obtain ⟨h1, h2, h3, h4⟩ := (initChecks_eq_none L s).1 hn
    rcases rekey_cases hb with ⟨g, hg, ho⟩ | ⟨hg, ho⟩
    · exact .inr (.inl ⟨L, g, .inl rfl, h1, h2, h3, h4, hg, ho⟩)
    · exact .inr (.inr (.inl ⟨L, .inl rfl, h1, hg, ho⟩))
  | reset L =>
    rcases checked_cases (h : execReset L s = o) with ⟨c, -, hc⟩ | ⟨hn, hb⟩
    · exact .inl ⟨c, hc⟩
    obtain ⟨h1, hr, h2, h3, h4⟩ := (resetChecks_eq_none L s).1 hn
    rcases rekey_cases hb with ⟨g, hg, ho⟩ | ⟨hg, ho⟩
    · exact .inr (.inl ⟨L, g, .inr ⟨rfl, hr⟩, h1, h2, h3, h4, hg, ho⟩)
    · exact .inr (.inr (.inl ⟨L, .inr ⟨rfl, hr⟩, h1, hg, ho⟩))
  | generate n =>
    rcases checked_cases (h : execGenerate n s = o) with ⟨c, -, hc⟩ | ⟨hn, hb⟩
    · exact .inl ⟨c, hc⟩
    obtain ⟨h1, hr⟩ := (generateChecks_eq_none s).1 hn
    rcases startGenerate_cases hb with ⟨rfl, ho⟩ | ⟨h0, ho⟩
    · exact .inr (.inr (.inr (.inl ⟨rfl, h1, hr, ho⟩)))
    · exact .inr (.inr (.inr (.inr (.inl ⟨n, rfl, h0, h1, hr, ho⟩))))
  | addEntropy e =>
    rcases checked_cases (h : execAddEntropy e s = o) with ⟨c, -, hc⟩ | ⟨hn, hb⟩
    · exact .inl ⟨c, hc⟩
    have hr := (notReadyFault_eq_none s).1 hn
    rcases loadEntropy_cases hb with ⟨hp, ho⟩ | ⟨hp, ho⟩
    · exact .inr (.inr (.inr (.inr (.inr (.inl ⟨e, rfl, hp, hr, ho⟩)))))
    · exact .inr (.inr (.inr (.inr (.inr (.inr ⟨e, rfl, hp, hr, ho⟩)))))

/-- Taking a word: a fault of checks 1 or 3, or the decoded command runs. -/
theorem takeWord_cases {p : Port} {w : Word} {s : State} {o : Host.Outcome State Fault Refusal}
    (h : takeWord p w s = o) :
    (∃ c, (c = .illegalOpcode ∨ c = .reservedNonzero) ∧
        o = .next (raiseFault c p w (onPort p s))) ∨
      (∃ i, decode w = .instr i ∧ exec i (onPort p s) = o) := by
  unfold takeWord at h
  split at h
  · next i hi => exact .inr ⟨i, hi, h⟩
  · exact .inl ⟨_, .inl rfl, h.symm⟩
  · exact .inl ⟨_, .inr rfl, h.symm⟩

/-- Everything a turn of the generator agent can answer (R72). -/
theorem generatorTurn_cases {s : State} {o : Host.Outcome State Fault Refusal}
    (h : generatorTurn s = o) :
    o = .next s ∨
    (∃ w rest, s.fault = false ∧ s.genPhase = .idle ∧ s.cmdFifo = w :: rest ∧
        takeWord .cmd w { s with cmdFifo := rest } = o) ∨
    (∃ rem, s.fault = false ∧ s.genPhase = .gen rem ∧ o = .next (prgaLoad rem s)) ∨
    (∃ rem a seen, s.fault = false ∧ s.genPhase = .prgaLoaded rem a seen ∧
        FifoDepth.hasRoom s.params.outFifoDepth s.outFifo.length = true ∧
        o = .next (prgaStore rem a seen s)) ∨
    (∃ e seen, s.fault = false ∧ s.genPhase = .entLoaded e seen ∧
        o = .next (cmdEntropyStore e seen s)) := by
  unfold generatorTurn at h
  split at h
  · exact .inl h.symm
  · next hf =>
    have hf : s.fault = false := by simpa using hf
    split at h
    · next hp =>
      split at h
      · next w rest hw => exact .inr (.inl ⟨w, rest, hf, hp, hw, h⟩)
      · exact .inl h.symm
    · next rem hp => exact .inr (.inr (.inl ⟨rem, hf, hp, h.symm⟩))
    · next rem a seen hp =>
      split at h
      · next hroom => exact .inr (.inr (.inr (.inl ⟨rem, a, seen, hf, hp, hroom, h.symm⟩)))
      · exact .inl h.symm
    · next e seen hp => exact .inr (.inr (.inr (.inr ⟨e, seen, hf, hp, h.symm⟩)))

/-- Everything a turn of the entropy agent can answer (R73). -/
theorem entropyTurn_cases {s : State} {o : Host.Outcome State Fault Refusal}
    (h : entropyTurn s = o) :
    o = .next s ∨
    (∃ w, s.fault = false ∧ s.entPhase = .idle ∧ s.entReg = some w ∧
        takeWord .ent w { s with entReg := none } = o) ∨
    (∃ e seen w, s.fault = false ∧ s.entPhase = .loaded e seen w ∧
        o = .next (entEntropyStore e seen s)) := by
  unfold entropyTurn at h
  split at h
  · exact .inl h.symm
  · next hf =>
    have hf : s.fault = false := by simpa using hf
    split at h
    · next hp =>
      split at h
      · next w hw => exact .inr (.inl ⟨w, hf, hp, hw, h⟩)
      · exact .inl h.symm
    · next e seen w hp => exact .inr (.inr ⟨e, seen, w, hf, hp, h.symm⟩)

/-- Everything a completed host access does (R55 to R63). -/
theorem hostAccess_done_cases {a : HostAccess} {s t : State} {v : Option Word}
    (h : hostAccess a s = .done t v) :
    t = s ∨
    (∃ b rest, s.outFifo = b :: rest ∧ t = { s with outFifo := rest } ∧
        v = some (b.setWidth 32)) ∨
    (∃ w, s.fault = false ∧ s.cmdFifo.length < s.params.cmdFifoDepth ∧
        t = { s with cmdFifo := s.cmdFifo ++ [w] }) ∨
    (∃ w, s.fault = false ∧ s.entReg = none ∧ t = { s with entReg := some w }) ∨
    (∃ off m w, keyWindowOffset ≤ off ∧ off < keyWindowOffset + s.params.keyBufBytes ∧
        off % 4 = 0 ∧ m = (off - keyWindowOffset) / 4 ∧
        t = { s with key := s.key.writeWord m w }) := by
  unfold hostAccess at h
  split at h
  · cases h
  split at h
  · cases h
  next hshape =>
  have hal : (a.addr - s.params.hostBase) % 4 = 0 := by
    simp only [not_or, ne_eq, Decidable.not_not] at hshape
    exact hshape.2
  split at h
  · unfold hostRead at h
    split at h <;> first
      | (cases h; exact .inl rfl)
      | skip
    unfold readOutData at h
    split at h
    · next b rest hb =>
      cases h
      exact .inr (.inl ⟨b, rest, hb, rfl, rfl⟩)
    · cases h
  · next w _ =>
    unfold hostWrite at h
    split at h <;> first
      | (cases h; exact .inl rfl)
      | skip
    · unfold writeCmd at h
      split at h
      · cases h; exact .inl rfl
      next hf =>
      split at h
      · cases h
      next hl =>
      cases h
      exact .inr (.inr (.inl ⟨w, by simpa using hf, by omega, rfl⟩))
    · unfold writeEnt at h
      split at h
      · cases h; exact .inl rfl
      next hf =>
      split at h
      · cases h
      next hl =>
      cases h
      exact .inr (.inr (.inr (.inl ⟨w, by simpa using hf, by simpa using hl, rfl⟩)))
    · next m hm =>
      cases h
      unfold hostReg at hm
      split at hm
      · cases hm
      split at hm
      · cases hm
      split at hm
      · cases hm
      split at hm
      · cases hm
      split at hm
      · cases hm
      split at hm
      · cases hm
      split at hm
      · next hk =>
        cases hm
        exact .inr (.inr (.inr (.inr ⟨_, _, w, hk.1, hk.2, hal, rfl, rfl⟩)))
      · cases hm

/-- Everything a completed action of the host does. -/
theorem hostAct_done_cases {a : HostAction} {s t : State} {v : Option Word}
    (h : hostAct a s = .done t v) :
    (∃ b, a = .wait b ∧ busyBit b s = false ∧ t = s ∧ v = none) ∨
      ∃ c, a = .access c ∧ hostAccess c s = .done t v := by
  cases a with
  | access c => exact .inr ⟨c, rfl, h⟩
  | wait b =>
    change hostWait b s = _ at h
    unfold hostWait at h
    split at h
    · cases h
    · next hb =>
      cases h
      exact .inl ⟨b, rfl, by simpa using hb, rfl, rfl⟩

/-- Everything a turn of the host can answer (R74). -/
theorem hostTurn_cases {k : Nat} {s : State} {o : Host.Outcome State Fault Refusal}
    (h : hostTurn k s = o) :
    o = .next s ∨
    (∃ a t v, s.hostQueue[k]? = some a ∧ hostAct a s = .done t v ∧
        o = .next { t with
          hostQueue := s.hostQueue.eraseIdx k, hostReads := s.hostReads ++ v.toList }) ∨
    (∃ a r, s.hostQueue[k]? = some a ∧ hostAct a s = .refused r ∧ o = .refused r) := by
  unfold hostTurn at h
  split at h
  · exact .inl h.symm
  · next a ha =>
    split at h
    · next t v hv => exact .inr (.inl ⟨a, t, v, ha, hv, h.symm⟩)
    · exact .inl h.symm
    · next r hr => exact .inr (.inr ⟨a, r, ha, hr, h.symm⟩)

/-- A step is one of the four turns of R71. -/
theorem step_cases {s : State} {o : Host.Outcome State Fault Refusal} (h : step s = o) :
    (currentTurn s = .generator ∧ generatorTurn (turnTaken s) = o) ∨
    (currentTurn s = .entropy ∧ entropyTurn (turnTaken s) = o) ∨
    (∃ k, currentTurn s = .host k ∧ hostTurn k (turnTaken s) = o) ∨
    (currentTurn s = .por ∧ o = .next (powerOnReset (turnTaken s))) := by
  unfold step takeTurn at h
  split at h
  · next ht => exact .inl ⟨ht, h⟩
  · next ht => exact .inr (.inl ⟨ht, h⟩)
  · next k ht => exact .inr (.inr (.inl ⟨k, ht, h⟩))
  · next ht => exact .inr (.inr (.inr ⟨ht, h.symm⟩))

/-! What a step is, once its turn is known. -/

section
variable {s : State} {ts : List Turn}

theorem step_generator (h : s.turns = .generator :: ts) :
    step s = generatorTurn { s with turns := ts } := by
  simp [step, currentTurn, turnTaken, h, takeTurn]

theorem step_entropy (h : s.turns = .entropy :: ts) :
    step s = entropyTurn { s with turns := ts } := by
  simp [step, currentTurn, turnTaken, h, takeTurn]

theorem step_host {k : Nat} (h : s.turns = .host k :: ts) :
    step s = hostTurn k { s with turns := ts } := by
  simp [step, currentTurn, turnTaken, h, takeTurn]

theorem step_por (h : s.turns = .por :: ts) :
    step s = .next (powerOnReset { s with turns := ts }) := by
  simp [step, currentTurn, turnTaken, h, takeTurn]

end

end Sys2Proof.Machine
end

