-- ==== Sys2Proof/Laws/Table.lean ====
section
/-! SUPPORT. The laws of the table `T`: reading after writing, what a swap leaves, and that a swap keeps a permutation (00_scope.md R12, 10_state.md R21). -/

namespace Sys2Proof.Machine

theorem Table.read_write (t : Table) (x z v : Byte) :
    Table.read (Table.write t x v) z = if z = x then v else Table.read t z := by
  unfold Table.read Table.write
  rw [Vector.getElem_set]
  by_cases h : z = x
  · simp [h]
  · have : x.toNat ≠ z.toNat := fun hx => h (BitVec.eq_of_toNat_eq hx.symm)
    simp [h, this]

/-- What each element is after `Swap(T, x, y)` (R12). -/
theorem Table.read_swap (t : Table) (x y z : Byte) :
    Table.read (Table.swap t x y) z =
      if z = y then Table.read t x else if z = x then Table.read t y else Table.read t z := by
  simp only [Table.swap, Table.read_write]

theorem Table.ext_read {t u : Table} (h : ∀ x, Table.read t x = Table.read u x) : t = u := by
  refine Vector.ext fun k hk => ?_
  have := h (BitVec.ofNat 8 k)
  have hk' : k % 2 ^ 8 = k := Nat.mod_eq_of_lt hk
  simpa only [Table.read, BitVec.toNat_ofNat, hk'] using this

/-- R12: "When x = y it leaves T unchanged." -/
theorem Table.swap_self (t : Table) (x : Byte) : Table.swap t x x = t := by
  refine Table.ext_read fun z => ?_
  rw [Table.read_swap]
  split <;> simp_all

/-- Our swap of two elements is the library's. -/
theorem Table.swap_eq (t : Table) (x y : Byte) :
    Table.swap t x y = Vector.swap t x.toNat y.toNat x.isLt y.isLt := by
  refine Table.ext_read fun z => ?_
  rw [Table.read_swap]
  unfold Table.read
  rw [Vector.getElem_swap]
  have key : ∀ p q : Byte, (p.toNat = q.toNat ↔ p = q) := fun p q =>
    ⟨BitVec.eq_of_toNat_eq, fun h => h ▸ rfl⟩
  simp only [key]
  by_cases h1 : z = x <;> by_cases h2 : z = y <;> simp_all

/-- A swap reorders the elements. -/
theorem Table.swap_perm (t : Table) (x y : Byte) :
    List.Perm (Table.swap t x y).toList t.toList := by
  rw [Table.swap_eq]
  have h := Vector.swap_perm (xs := t) x.isLt y.isLt
  exact (Vector.perm_iff_toList_perm).1 h

/-- R21, R147: a swap keeps a permutation. -/
theorem Table.isPermutation_swap {t : Table} (x y : Byte) (h : Table.isPermutation t) :
    Table.isPermutation (Table.swap t x y) := fun v => by
  rw [(Table.swap_perm t x y).count_eq]
  exact h v

end Sys2Proof.Machine
end

