-- ==== Sys2Proof/Laws/Generator.lean ====
section
/-! SUPPORT. What the PRGA step and the key-scheduling procedure leave of the table and the cursors. -/

namespace Sys2Proof.Machine

@[simp] theorem Generator.advance_table (g : Generator) : g.advance.table = g.table := rfl

@[simp] theorem Generator.advance_cursorI (g : Generator) :
    g.advance.cursorI = g.cursorI + prgaStride := rfl

@[simp] theorem Generator.advance_cursorJ (g : Generator) : g.advance.cursorJ = g.cursorJ := rfl

@[simp] theorem Generator.store_table (a : Byte) (seen : Word) (g : Generator) :
    (g.store a seen).table = Table.swap g.table g.cursorI (lowByte (prgaCursorJ seen a)) := rfl

@[simp] theorem Generator.store_cursorI (a : Byte) (seen : Word) (g : Generator) :
    (g.store a seen).cursorI = g.cursorI := rfl

@[simp] theorem Generator.store_cursorJ (a : Byte) (seen : Word) (g : Generator) :
    (g.store a seen).cursorJ = prgaCursorJ seen a := rfl

theorem Generator.store_isPermutation {g : Generator} (a : Byte) (seen : Word)
    (h : Table.isPermutation g.table) : Table.isPermutation (g.store a seen).table :=
  Table.isPermutation_swap _ _ h

theorem Generator.discardSteps_succ (n : Nat) (g : Generator) :
    g.discardSteps (n + 1) = (g.discardSteps n).discardStep := by
  induction n generalizing g with
  | zero => rfl
  | succ n ih => exact ih g.discardStep

/-- A property that one PRGA step keeps, any number of them keeps. -/
theorem Generator.discardSteps_keeps {P : Generator → Prop} (hstep : ∀ g, P g → P g.discardStep)
    (n : Nat) (g : Generator) (h : P g) : P (g.discardSteps n) := by
  induction n generalizing g with
  | zero => exact h
  | succ n ih => exact ih _ (hstep g h)

/-- A property of the table and the indices that one round of KSA_MIX keeps, KSA_MIX keeps. -/
theorem mixRounds_keeps {P : MixState → Prop} (hround : ∀ k m, P m → P (m.round k))
    {key : Memory} {len n r : Nat} {m m' : MixState} (hm : P m)
    (h : mixRounds key len n r m = some m') : P m' := by
  induction n generalizing r m with
  | zero =>
    obtain rfl : m = m' := by simpa [mixRounds] using h
    exact hm
  | succ n ih =>
    simp only [mixRounds] at h
    split at h
    · exact ih (hround _ _ hm) h
    · cases h

/-- Rounds that read key bytes that all have a value come to an end. -/
theorem mixRounds_isSome {key : Memory} {len n r : Nat} (m : MixState)
    (h : ∀ k, r ≤ k → k < r + n → (keyByte key len k).isSome) :
    (mixRounds key len n r m).isSome := by
  induction n generalizing r m with
  | zero => rfl
  | succ n ih =>
    have h0 := h r (Nat.le_refl r) (by omega)
    obtain ⟨k, hk⟩ := Option.isSome_iff_exists.1 h0
    simp only [mixRounds, hk]
    exact ih _ fun k h1 h2 => h k (by omega) (by omega)

/-- Rounds of which one reads a key byte without a value come to none. -/
theorem mixRounds_eq_none {key : Memory} {len n r k : Nat} (m : MixState) (h1 : r ≤ k)
    (h2 : k < r + n) (h : keyByte key len k = none) : mixRounds key len n r m = none := by
  induction n generalizing r m with
  | zero => omega
  | succ n ih =>
    simp only [mixRounds]
    rcases Nat.eq_or_lt_of_le h1 with rfl | hlt
    · simp [h]
    · split
      · exact ih _ hlt (by omega)
      · rfl

/-- Rounds read only the key bytes of their own indices. -/
theorem mixRounds_congr {key key' : Memory} {len n r : Nat} (m : MixState)
    (h : ∀ k, r ≤ k → k < r + n → keyByte key len k = keyByte key' len k) :
    mixRounds key len n r m = mixRounds key' len n r m := by
  induction n generalizing r m with
  | zero => rfl
  | succ n ih =>
    simp only [mixRounds, h r (Nat.le_refl r) (by omega)]
    split
    · exact ih _ fun k h1 h2 => h k (by omega) (by omega)
    · rfl

end Sys2Proof.Machine
end

