-- ==== Sys2Proof/Laws/Memory.lean ====
section
/-! SUPPORT. The laws of the key memory: reading after writing, and that every operation keeps the canonical form. -/

namespace Sys2Proof.Machine

theorem Memory.read_write_same (m : Memory) (x : Nat) (v : Byte) : (m.write x v).read x = some v := by
  induction m with
  | nil => simp [Memory.write, Memory.read]
  | cons c m ih =>
    obtain ⟨a, u⟩ := c
    simp only [Memory.write]
    split
    · simp [Memory.read]
    · split
      · simp [Memory.read]
      · rename_i h
        simp [Memory.read, Ne.symm h, ih]

theorem Memory.read_write_other {x y : Nat} (m : Memory) (v : Byte) (h : y ≠ x) :
    (m.write x v).read y = m.read y := by
  induction m with
  | nil => simp [Memory.write, Memory.read, Ne.symm h]
  | cons c m ih =>
    obtain ⟨a, u⟩ := c
    simp only [Memory.write]
    split
    · simp [Memory.read, Ne.symm h]
    · split
      · rename_i hxa
        subst hxa
        simp [Memory.read, Ne.symm h]
      · simp only [Memory.read, ih]

/-- One law for a read after a write at any two addresses. -/
theorem Memory.read_write (m : Memory) (x y : Nat) (v : Byte) :
    (m.write x v).read y = if y = x then some v else m.read y := by
  split
  · next h => rw [h, Memory.read_write_same]
  · next h => exact m.read_write_other v h

theorem Memory.mem_write {m : Memory} {x : Nat} {v : Byte} {c : Host.Cell} (h : c ∈ m.write x v) :
    c.1 = x ∨ c ∈ m := by
  induction m with
  | nil =>
    simp only [Memory.write, List.mem_singleton] at h
    exact .inl (by rw [h])
  | cons d m ih =>
    obtain ⟨a, u⟩ := d
    simp only [Memory.write] at h
    split at h
    · rcases List.mem_cons.1 h with h | h
      · exact .inl (by rw [h])
      · exact .inr h
    · split at h
      · rcases List.mem_cons.1 h with h | h
        · exact .inl (by rw [h])
        · exact .inr (List.mem_cons_of_mem _ h)
      · rcases List.mem_cons.1 h with h | h
        · exact .inr (by rw [h]; exact List.mem_cons_self)
        · exact (ih h).imp_right (List.mem_cons_of_mem _)

/-- A write keeps the canonical form. -/
theorem Memory.wf_write {m : Memory} (x : Nat) (v : Byte) (h : m.wf) : (m.write x v).wf := by
  induction m with
  | nil => simp [Memory.write]
  | cons d m ih =>
    obtain ⟨a, u⟩ := d
    obtain ⟨ha, hm⟩ := List.pairwise_cons.1 h
    simp only [Memory.write]
    split
    · next hxa =>
      refine List.pairwise_cons.2 ⟨fun c hc => ?_, h⟩
      rcases List.mem_cons.1 hc with rfl | hc
      · exact hxa
      · exact Nat.lt_trans hxa (ha c hc)
    · split
      · next hxa => exact List.pairwise_cons.2 ⟨fun c hc => hxa ▸ ha c hc, hm⟩
      · next hlt hne =>
        refine List.pairwise_cons.2 ⟨fun c hc => ?_, ih hm⟩
        rcases Memory.mem_write hc with hc | hc
        · simp only [hc]; omega
        · exact ha c hc

theorem Memory.wf_writeWord {k : Memory} (m : Nat) (w : Word) (h : k.wf) : (k.writeWord m w).wf :=
  Memory.wf_write _ _ (Memory.wf_write _ _ (Memory.wf_write _ _ (Memory.wf_write _ _ h)))

theorem Memory.mem_writeWord {k : Memory} {m : Nat} {w : Word} {c : Host.Cell}
    (h : c ∈ k.writeWord m w) : (4 * m ≤ c.1 ∧ c.1 ≤ 4 * m + 3) ∨ c ∈ k := by
  unfold Memory.writeWord at h
  rcases Memory.mem_write h with h | h
  · omega
  rcases Memory.mem_write h with h | h
  · omega
  rcases Memory.mem_write h with h | h
  · omega
  rcases Memory.mem_write h with h | h
  · omega
  exact .inr h

theorem reset_key_wf : State.reset.key.wf := List.Pairwise.nil

/-- An address below every listed one reads as unlisted. -/
theorem Memory.read_eq_unlisted {m : Memory} {x : Nat} (h : ∀ c ∈ m, x < c.1) :
    m.read x = Memory.unlisted := by
  induction m with
  | nil => rfl
  | cons d m ih =>
    obtain ⟨a, u⟩ := d
    have hxa : x < a := h _ List.mem_cons_self
    rw [Memory.read, if_neg (by omega), ih fun c hc => h c (List.mem_cons_of_mem _ hc)]

/-- Canonical memories that read alike are equal data. -/
theorem Memory.eq_of_read_eq {m n : Memory} (hm : m.wf) (hn : n.wf)
    (h : ∀ x, m.read x = n.read x) : m = n := by
  induction m generalizing n with
  | nil =>
    cases n with
    | nil => rfl
    | cons d n =>
      have := h d.1
      simp [Memory.read, Memory.unlisted] at this
  | cons c m ih =>
    obtain ⟨a, u⟩ := c
    obtain ⟨ha, hm'⟩ := List.pairwise_cons.1 hm
    cases n with
    | nil =>
      have := h a
      simp [Memory.read, Memory.unlisted] at this
    | cons d n =>
      obtain ⟨b, v⟩ := d
      obtain ⟨hb, hn'⟩ := List.pairwise_cons.1 hn
      have hab : a = b := by
        rcases Nat.lt_trichotomy a b with hlt | heq | hgt
        · have hx := h a
          rw [Memory.read, if_pos rfl, Memory.read, if_neg (by omega),
            Memory.read_eq_unlisted (fun c hc => Nat.lt_trans hlt (hb c hc))] at hx
          simp [Memory.unlisted] at hx
        · exact heq
        · have hx := h b
          rw [Memory.read, if_neg (by omega), Memory.read, if_pos rfl,
            Memory.read_eq_unlisted (fun c hc => Nat.lt_trans hgt (ha c hc))] at hx
          simp [Memory.unlisted] at hx
      subst hab
      have huv : u = v := by
        have hx := h a
        simpa [Memory.read] using hx
      subst huv
      congr 1
      refine ih hm' hn' fun x => ?_
      by_cases hx : a = x
      · subst hx
        rw [Memory.read_eq_unlisted ha, Memory.read_eq_unlisted hb]
      · have := h x
        rwa [Memory.read, if_neg hx, Memory.read, if_neg hx] at this

end Sys2Proof.Machine
end

