-- ==== Sys2Proof/Laws/PerInstr.lean ====
section
/-! SUPPORT. Facts about every command as syntax, one lemma per constructor: its word is the row that spec/opcode_table.json gives it, with the operand in the bits that the row leaves open. -/

namespace Sys2Proof

/-- The two fields of a command's word, as numbers (30_encoding.md R90). -/
theorem encode_toNat (i : Instr) :
    (encode i).toNat = 2 ^ 28 * (opcode i).toNat + (argument i).toNat := by
  have h : (encode i).toNat = (opcode i).toNat <<< 28 ||| (argument i).toNat :=
    BitVec.toNat_append _ _
  rw [h, Nat.shiftLeft_eq, Nat.mul_comm, ← Nat.two_pow_add_eq_or_of_lt (argument i).isLt]

theorem argument_addEntropy_toNat (e : Half) : (argument (.addEntropy e)).toNat = e.toNat := by
  have h : (argument (.addEntropy e)).toNat = (0 : BitVec 12).toNat <<< 16 ||| e.toNat :=
    BitVec.toNat_append _ _
  simpa using h

end Sys2Proof

namespace Sys2Proof.Laws.TableRow

/-- The `match` of a command's row in spec/opcode_table.json. -/
def rowMatch : Instr → Nat
  | .init _ => 0x10000000
  | .reset _ => 0x20000000
  | .generate _ => 0x30000000
  | .addEntropy _ => 0x40000000

/-- The operand of a command, as a number. -/
def operand : Instr → Nat
  | .init L => L.toNat
  | .reset L => L.toNat
  | .generate n => n.toNat
  | .addEntropy e => e.toNat

/-- The word of a command is its row's `match` with the operand added in the bits outside the row's
`mask`. -/
def Statement (i : Instr) : Prop := (encode i).toNat = rowMatch i + operand i

theorem init (L : BitVec 28) : Statement (.init L) := encode_toNat (.init L)

theorem reset (L : BitVec 28) : Statement (.reset L) := encode_toNat (.reset L)

theorem generate (n : BitVec 28) : Statement (.generate n) := encode_toNat (.generate n)

theorem addEntropy (e : Half) : Statement (.addEntropy e) :=
  (encode_toNat (.addEntropy e)).trans (by rw [argument_addEntropy_toNat]; rfl)

end Sys2Proof.Laws.TableRow
end

