-- ==== Sys2Proof/Laws/Run.lean ====
section
/-! SUPPORT. What the terms of Safety.lean for the end of a run say, as propositions, and how runs of steps unfold. -/

namespace Sys2Proof.Machine

variable {s t : State} {k : Nat}

/-- A store holds exactly where a fault-free core has one to make and the output FIFO has no room. -/
theorem storeHeld_iff : storeHeld s = true ↔ s.fault = false ∧ ∃ rem a seen,
    s.genPhase = .prgaLoaded rem a seen ∧
      FifoDepth.hasRoom s.params.outFifoDepth s.outFifo.length = false := by
  unfold storeHeld
  cases s.genPhase <;> simp

theorem hostHeld_iff : hostHeld s = true ↔ ∃ a ∈ s.hostQueue, (hostAct a s).isHold = true := by
  simp [hostHeld]

theorem quiescent_iff : quiescent s = true ↔ generatorEnabled s = false ∧
    entropyEnabled s = false ∧ hostHeld s = false ∧ storeHeld s = false := by
  simp [quiescent, and_assoc]

theorem atEnd_iff : atEnd s = true ↔ s.hostQueue = [] ∧ quiescent s = true := by
  simp [atEnd]

/-- A generator agent of a fault-free core without an enabled step and without a held store is idle. -/
theorem not_genBusy (hf : s.fault = false) (hg : generatorEnabled s = false)
    (hs : storeHeld s = false) : genBusy s = false := by
  revert hg hs
  unfold generatorEnabled storeHeld genBusy GenPhase.isIdle
  cases s.genPhase <;> simp [hf]

/-- An entropy agent of a fault-free core without an enabled step is idle. -/
theorem not_entBusy (hf : s.fault = false) (he : entropyEnabled s = false) : entBusy s = false := by
  revert he
  unfold entropyEnabled entBusy
  cases s.entReg <;> simp [hf]

@[simp] theorem runSteps_zero : runSteps 0 s = .next s := rfl

/-- A run of k + 1 steps whose first step answers a next state. -/
theorem runSteps_succ (h : step s = .next t) : runSteps (k + 1) s = runSteps k t := by
  rw [runSteps, h]

theorem endState_of_atEnd (h : atEnd s = true) : endState k s = some s := by
  cases k <;> simp [endState, h]

/-- A run that has not ended yet ends where the run from its next state does. -/
theorem endState_succ (he : atEnd s = false) (h : step s = .next t) :
    endState (k + 1) s = endState k t := by
  simp [endState, he, h]

/-- How a run can come to an end state. -/
theorem endState_cases (h : endState k s = some t) :
    (atEnd s = true ∧ t = s) ∨
      ∃ j u, k = j + 1 ∧ atEnd s = false ∧ step s = .next u ∧ endState j u = some t := by
  cases he : atEnd s with
  | true => exact .inl ⟨rfl, by simpa [endState_of_atEnd he] using h.symm⟩
  | false =>
    cases k with
    | zero => simp [endState, he] at h
    | succ j =>
      rcases hs : step s with u | r | r
      · exact .inr ⟨j, u, rfl, rfl, rfl, by rwa [endState_succ he hs] at h⟩
      · simp [endState, he, hs] at h
      · simp [endState, he, hs] at h

end Sys2Proof.Machine
end

