-- ==== Sys2Proof/Tests/Slice0.lean ====
section
/-! SUPPORT. The model's own tests, with expected values from spec/95_test_vectors.md and the spec's worked examples, and a witness for the hypotheses of each statement. -/

namespace Sys2Proof.Tests

open Sys2Proof.Machine Sys2Proof.Spec

/-- A value read off a next state. -/
def ofNext {α : Type} (f : State → α) : Host.Outcome State Fault Refusal → Option α
  | .next s => some (f s)
  | .fault _ => none
  | .refused _ => none

/-- An initialised core whose table is the KSA_FILL table, with the cursors given. -/
def filledState (ci : Byte) (cj : Word) : State :=
  { State.reset with ready := true, gen := { table := ksaFill, cursorI := ci, cursorJ := cj } }

/-- The generator state of V-PRGA: the KSA_FILL table and the cursors given. -/
def filledGen (ci : Byte) (cj : Word) : Generator :=
  { table := ksaFill, cursorI := ci, cursorJ := cj }

/-! WellFormed: an ill-formed term for each check (R100). -/

theorem test_init_operand_refused : AsmCommand.wellFormed ⟨.cmd, .INIT, 2 ^ 28⟩ = false := by decide

theorem test_reset_operand_refused : AsmCommand.wellFormed ⟨.cmd, .RESET, 2 ^ 28⟩ = false := by decide

theorem test_generate_operand_refused :
    AsmCommand.wellFormed ⟨.ent, .GENERATE, 2 ^ 28⟩ = false := by decide

theorem test_entropy_operand_refused :
    AsmCommand.wellFormed ⟨.ent, .ADD_ENTROPY, 2 ^ 16⟩ = false := by decide

/-! Decoding: words written out from the encodings of R92 to R94, OP then ARG. -/

theorem test_decode_init : decode (0b0001_0000000000000000000100000001#32) = .instr (.init 257) := by
  decide

theorem test_decode_reset : decode (0b0010_1000000000000000000000000011#32) =
    .instr (.reset 0x8000003) := by decide

theorem test_decode_generate : decode (0b0011_1111111111111111111111111111#32) =
    .instr (.generate 268435455) := by decide

theorem test_decode_entropy : decode (0b0100_000000000000_0001001000110100#32) =
    .instr (.addEntropy 0x1234) := by decide

/-- R97, V-ENC-9 and the other end of RES. -/
theorem test_decode_reserved : decode 0x40010000 = .reserved ∧ decode 0x48000000 = .reserved := by
  decide

/-- V-ENC-10, V-ENC-11, V-ENC-12. -/
theorem test_decode_illegal : decode 0x00000000 = .illegal ∧ decode 0x50000000 = .illegal ∧
    decode 0xF1234567 = .illegal := by decide

theorem test_encode_entropy : encode (.addEntropy 0xFFFF) = 0x4000FFFF := by decide

theorem test_decodeTableWord : decodeTableWord 32 0x30000010 = some (.generate 16) ∧
    decodeTableWord 32 0x40010000 = none := by decide

/-! KSA (INIT, RESET). -/

/-- V-KSA-1: elements of the fill table. -/
theorem test_fill : Table.read ksaFill 0x0F = 0x90 ∧ Table.read ksaFill 0x80 = 0x69 ∧
    Table.read ksaFill 0xFE = 0x17 ∧ Table.read ksaFill 0xFF = 0x00 := by decide +kernel

/-- V-KSA-2: `j` and T[i] after each of the first rounds with the key "Key". -/
theorem test_mix_rounds :
    ((mixRounds [(0, 0x4B), (1, 0x65), (2, 0x79)] 3 6 0 { table := ksaFill, i := 0, j := 0 }).map
      fun m => (m.j, Table.read m.table 0x00, Table.read m.table 0x03, Table.read m.table 0x05,
        Table.read m.table 0x34, Table.read m.table 0x6F)) =
      some (0x6F, 0x3D, 0x27, 0xF0, 0xE9, 0x76) := by decide +kernel

/-- R113: both branches, at the boundary. -/
theorem test_ksaRounds : ksaRounds 1 = 256 ∧ ksaRounds 256 = 256 ∧ ksaRounds 257 = 257 := by decide

/-- V-FAULT-1: INIT 0 faults EMPTY_KEY; STATUS 0x52, FAULT_CMD the word. -/
theorem test_init_empty_key : ofNext (fun t => (statusWord t, t.faultCmd))
    (step (State.reset.withFetchWord 32 0x10000000)) = some (0x52, 0x10000000) := by decide +kernel

/-- V-FAULT-7: INIT 2000 with KEY_BUF_BYTES = 1024 and READY = 1. -/
theorem test_init_key_too_long : ofNext (fun t => (statusWord t, t.faultCmd))
    (step ((filledState 0 0).withFetchWord 32 0x100007D0)) = some (0x63, 0x100007D0) := by
  decide +kernel

/-- V-FAULT-11: NOT_INITIALIZED comes before EMPTY_KEY. -/
theorem test_reset_before_init : ofNext (fun t => (statusWord t, t.faultCmd))
    (step (State.reset.withFetchWord 32 0x20000000)) = some (0x42, 0x20000000) := by decide +kernel

/-- V-FAULT-10: RESET_OVERLAP leaves `cursor_j` and ENT_BUSY. -/
theorem test_reset_overlap : ofNext (fun t => (statusWord t, t.gen.cursorJ))
    (step (State.withFetchWord { filledState 0x26 0xC5CBFDE3 with
      entPhase := .loaded 0x1234 0xC5CBFDE3 0x40001234 } 32 0x20000003)) =
    some (0x77, 0xC5CBFDE3) := by decide +kernel

/-! PRGA (GENERATE). -/

/-- V-PRGA-2: `cursor_i` wraps in the load step. -/
theorem test_prga_load : ofNext (fun t => (t.gen.cursorI, t.genPhase))
    (step { filledState 0xFA 0 with genPhase := .gen 7, turns := [.generator] }) =
    some (0x05, .prgaLoaded 7 0x76 0) := by decide +kernel

/-- V-PRGA-3: `cursor_j` wraps in the store step. -/
theorem test_prga_store : ofNext (fun t => (t.gen.cursorJ, t.outFifo, t.genPhase,
      Table.read t.gen.table 0x0B, Table.read t.gen.table 0xEB))
    (step { filledState 0x0B 0xFFFFFFFF with
      genPhase := .prgaLoaded 1 0xEC 0xFFFFFFFF, turns := [.generator] }) =
    some (0x000000EB, [0x61], .idle, 0xCC, 0xEC) := by decide +kernel

/-- The bytes of V-PRGA-1, 4, 5 and 6: basic, aliased, u = i, u = j0. -/
theorem test_prga_bytes :
    (filledGen 0x0B 0).outputByte 0xEC 0x80000001 = 0xA5 ∧
    (filledGen 0x0B 0).outputByte 0xEC 0x8000000F = 0x81 ∧
    (filledGen 0x0B 0).outputByte 0xEC 0x0000006D = 0x1F ∧
    (filledGen 0x16 0).outputByte 0xEF 0x0000000D = 0xEF := by decide +kernel

/-- V-FAULT-3. -/
theorem test_generate_before_init : ofNext (fun t => (statusWord t, t.faultCmd, t.outFifo))
    (step (State.reset.withFetchWord 32 0x30000004)) = some (0x42, 0x30000004, []) := by
  decide +kernel

/-! ADD_ENTROPY. -/

/-- V-ENT-1, 4, 5, 6 and 7. -/
theorem test_entropy_values : newCursorJ 0x12345678 0 = 0x24685678 ∧
    newCursorJ 0xFFFF00AB 1 = 0x000000AB ∧ newCursorJ 0x8000FFFF 0 = 0x0001FFFF ∧
    newCursorJ 0x0001ABCD 0xFFFF = 0x0001ABCD ∧ newCursorJ 0xDEADBEEF 0x1234 = 0xCF8FBEEF := by
  decide

/-- R162: the store uses the low half of `seen`, not the current one. -/
theorem test_entropy_store : ofNext (fun t => (t.gen.cursorJ, t.entPhase))
    (step { filledState 0 0x11112222 with
      entPhase := .loaded 0x1234 0xDEADBEEF 0x40001234, turns := [.entropy] }) =
    some (0xCF8FBEEF, .idle) := by decide +kernel

/-- V-FAULT-8: ADD_ENTROPY on ENT before any INIT. -/
theorem test_entropy_before_init : ofNext (fun t => (statusWord t, t.faultCmd, t.entReg))
    (step { State.reset with entReg := some 0x40000005, turns := [.entropy] }) =
    some (0x142, 0x40000005, none) := by decide

/-- V-FAULT-9: GENERATE on ENT. -/
theorem test_port_violation : ofNext (fun t => (statusWord t, t.faultCmd))
    (step { filledState 0 0 with entReg := some 0x30000001, turns := [.entropy] }) =
    some (0x123, 0x30000001) := by decide +kernel

/-- V-FAULT-4 and V-FAULT-5: illegal and reserved words. -/
theorem test_word_faults :
    ofNext statusWord (step (State.reset.withFetchWord 32 0)) = some 0x12 ∧
    ofNext statusWord (step (State.reset.withFetchWord 32 0x40010000)) = some 0x32 := by
  decide +kernel

/-! The host. -/

/-- V-ENC-14: the KEY window write of "Key". -/
theorem test_key_write : ofNext (fun t => t.key)
    (step { State.reset with
      turns := [.host 0], hostQueue := [.access (writeAt paramsAtReset 0x100 0x0079654B)] }) =
    some [(0, 0x4B), (1, 0x65), (2, 0x79), (3, 0x00)] := by decide

/-- R101: `.key` pads the last word with zero bytes. -/
theorem test_key_directive :
    Directive.actions paramsAtReset (.key [0x4B, 0x65, 0x79]) =
      some [.access (writeAt paramsAtReset 0x100 0x0079654B)] := by decide

/-- R233: the host waits after a word on either port, and P5's host does not. -/
theorem test_word_waits :
    programActions paramsAtReset [.command ⟨.cmd, .INIT, 3⟩ true,
        .command ⟨.ent, .ADD_ENTROPY, 0x8000⟩ true, .command ⟨.cmd, .GENERATE, 5⟩ false] =
      some [.access (writeAt paramsAtReset 0x008 0x10000003), .wait .gen,
        .access (writeAt paramsAtReset 0x00C 0x40008000), .wait .ent,
        .access (writeAt paramsAtReset 0x008 0x30000005)] := by decide

/-- V-FAULT-3 with the host's wait: the end state of the run, as the host reads it. -/
theorem test_end_state :
    (endState 3 (programStart paramsAtReset
        (wordActions paramsAtReset true .cmd 0x30000004) [.host 0, .generator, .host 0])).map endView =
      some { status := 0x42, faultCmd := 0x30000004, bytes := [] } := by decide +kernel

/-- R233: the wait for GEN_BUSY goes on while a word waits, so the run has not ended. -/
theorem test_wait_holds : endState 2 (programStart paramsAtReset
    (wordActions paramsAtReset true .cmd 0x30000004) [.host 0, .host 0]) = none := by decide +kernel

/-- R59: the head byte is removed and returned. -/
theorem test_out_data : ofNext (fun t => (t.outFifo, t.hostReads))
    (step { State.reset with outFifo := [0x1E, 0x86], turns := [.host 0],
                             hostQueue := [.access (readAt paramsAtReset 0x010)] }) =
    some ([0x86], [0x0000001E]) := by decide

/-! Witnesses. -/

/-- An initialised core with small parameters, the KSA_FILL table, a key byte and a byte in its output
FIFO. -/
def busy : State :=
  { State.reset with
    params := { keyBufBytes := 260, outFifoDepth := .bounded 2, cmdFifoDepth := 2,
                hostBase := 0x1000 }
    gen := { table := ksaFill, cursorI := 0, cursorJ := 0 }
    ready := true, outFifo := [0x5A], key := [(0, 0x4B)] }

/-- `busy` with the access of `off` presented and the host's turn. -/
def asked (off : Nat) (op : HostOp) : State :=
  { busy with
    turns := [.host 0], hostQueue := [.access { addr := 0x1000 + off, width := 32, op := op }] }

theorem asked_presents (off : Nat) (op : HostOp) : presents (asked off op) 0 [] off op := ⟨rfl, rfl⟩

theorem busy_key : keyHolds busy (fun _ => 0x4B) (1 : BitVec 28).toNat := by
  intro x hx
  obtain rfl : x = 0 := Nat.lt_one_iff.1 hx
  rfl

theorem busy_room : roomFor busy 1 := by
  intro k hk
  obtain rfl : k = 0 := Nat.lt_one_iff.1 hk
  rfl

theorem busy_legal : keyCommandLegal busy 1 := by unfold keyCommandLegal; decide

theorem busy_idle : idleAndReady busy := by unfold idleAndReady; decide

/-- AssembledWordIsOpcodeAndOperand: both clauses, at the bound of each width. -/
theorem witness_assembler_bounds :
    (assemble ⟨.cmd, .GENERATE, 2 ^ 28⟩ = none ∧
      assemble ⟨.cmd, .GENERATE, 2 ^ 28 - 1⟩ = some (.cmd, 0x3FFFFFFF)) ∧
    (assemble ⟨.ent, .ADD_ENTROPY, 2 ^ 16⟩ = none ∧
      assemble ⟨.ent, .ADD_ENTROPY, 2 ^ 16 - 1⟩ = some (.ent, 0x4000FFFF)) := by decide

/-- StepRunsTheDecodedCommand: both clauses. -/
theorem witness_step_runs :
    (∃ s : State, s.turns = [.generator] ∧ s.fault = false ∧ s.genPhase = .idle ∧
      s.cmdFifo = [0x30000002] ∧ decode 0x30000002 = .instr (.generate 2)) ∧
    (∃ s : State, s.turns = [.entropy] ∧ s.fault = false ∧ s.entPhase = .idle ∧
      s.entReg = some 0x40000005 ∧ decode 0x40000005 = .instr (.addEntropy 5)) :=
  ⟨⟨{ busy with turns := [.generator], cmdFifo := [0x30000002] }, by decide⟩,
    ⟨{ busy with turns := [.entropy], entReg := some 0x40000005 }, by decide⟩⟩

/-- WordTakesFirstMatchingFault and FaultEntryChangesOnlyFaultFields: each cause is the first match of
some word, and some word matches none. -/
theorem witness_first_causes :
    firstCause 0x00000000 .cmd busy = some .illegalOpcode ∧
    firstCause 0x10000000 .ent busy = some .portViolation ∧
    firstCause 0x40010000 .ent State.reset = some .reservedNonzero ∧
    firstCause 0x20000000 .cmd State.reset = some .notInitialized ∧
    firstCause 0x10000000 .cmd busy = some .emptyKey ∧
    firstCause 0x10000105 .cmd busy = some .keyTooLong ∧
    firstCause 0x20000104 .cmd { busy with entPhase := .loaded 0 0 0x40000000 } =
      some .resetOverlap ∧
    firstCause 0x20000104 .cmd busy = none := by decide

/-- FaultEntryChangesOnlyFaultFields: both clauses. -/
theorem witness_fault_entry :
    (∃ s : State, s.turns = [.generator] ∧ s.fault = false ∧ s.genPhase = .idle ∧
      s.cmdFifo = [0x10000000] ∧ firstCause 0x10000000 .cmd s = some .emptyKey) ∧
    (∃ s : State, s.turns = [.entropy] ∧ s.fault = false ∧ s.entPhase = .idle ∧
      s.entReg = some 0x30000001 ∧ firstCause 0x30000001 .ent s = some .portViolation) :=
  ⟨⟨{ busy with turns := [.generator], cmdFifo := [0x10000000] }, by decide⟩,
    ⟨{ busy with turns := [.entropy], entReg := some 0x30000001 }, by decide⟩⟩

/-- IllegalWordFaultsOnEitherPort: both ends of the two ranges. -/
theorem witness_illegal_words :
    wordOp 0x0FFFFFFF = 0 ∧ 5 ≤ wordOp 0x50000000 ∧ 5 ≤ wordOp 0xFFFFFFFF := by decide

/-- HaltedAgentsDoNothing and OnlyPowerOnResetClearsAFault. -/
theorem witness_halted :
    (∃ s : State, s.fault = true ∧ s.turns = [.generator] ∧ s.cmdFifo ≠ []) ∧
    (∃ s : State, s.fault = true ∧ s.turns = [.entropy] ∧ s.entReg ≠ none) ∧
    (∃ s t : State, s.fault = true ∧ currentTurn s ≠ .por ∧ step s = .next t) ∧
    (∃ s : State, s.fault = true ∧ presents s 0 [] 0x008 (.write 7)) ∧
    (∃ s : State, s.fault = true ∧ presents s 0 [] 0x00C (.write 7)) ∧
    (∃ s t : State, currentTurn s = .por ∧ step s = .next t) :=
  ⟨⟨{ busy with fault := true, turns := [.generator], cmdFifo := [0] }, by decide⟩,
    ⟨{ busy with fault := true, turns := [.entropy], entReg := some 0 }, by decide⟩,
    ⟨{ busy with fault := true, turns := [.generator] }, _, rfl, by decide, rfl⟩,
    ⟨{ asked 0x008 (.write 7) with fault := true }, rfl, rfl, rfl⟩,
    ⟨{ asked 0x00C (.write 7) with fault := true }, rfl, rfl, rfl⟩,
    ⟨{ busy with turns := [.por] }, _, rfl, rfl⟩⟩

/-- OnlyTakingAWordCanFault, and the second part of ExclusivityProtocolPreventsOverlap. -/
theorem witness_fault_taken :
    (∃ s t : State, s.fault = false ∧ step s = .next t ∧ t.fault = true ∧
      currentTurn s = .generator) ∧
    (∃ s t : State, s.fault = false ∧ step s = .next t ∧ t.fault = true ∧
      currentTurn s = .entropy) :=
  ⟨⟨{ busy with turns := [.generator], cmdFifo := [0] }, _, rfl, rfl, rfl, rfl⟩,
    ⟨{ busy with turns := [.entropy], entReg := some 0 }, _, rfl, rfl, rfl, rfl⟩⟩

/-- InitBuildsGeneratorFromKey, ResetBuildsGeneratorFromKey, ResetEqualsInitWhenReady,
UnwrittenKeyByteStopsRekeying and InitDependsOnlyOnItsKey. -/
theorem witness_key_commands :
    (keyCommandLegal busy 1 ∧ busy.ready = true ∧
      keyHolds busy (fun _ => 0x4B) (1 : BitVec 28).toNat) ∧
    (keyCommandLegal { busy with ready := false } 1) ∧
    (keyCommandLegal busy 260 ∧ busy.key.read 259 = none) :=
  ⟨⟨busy_legal, rfl, busy_key⟩, by unfold keyCommandLegal; decide,
    by unfold keyCommandLegal; decide, by decide⟩

/-- InitDependsOnlyOnItsKey, RekeyedTableIsPermutation, InitKeepsPortsAndKey,
CommandsKeepPortsAndKey: an INIT and a RESET that complete. -/
theorem witness_rekey_completes :
    (∃ t, exec (.init 1) busy = .next t) ∧ (∃ t, exec (.reset 1) busy = .next t) := by
  have hk : ∀ r, keyByte busy.key 1 r = some 0x4B := fun r => by
    rw [keyByte, Nat.mod_one]
    rfl
  have hm : ∀ n r m, ∃ m', mixRounds busy.key 1 n r m = some m' := by
    intro n
    induction n with
    | zero => exact fun r m => ⟨m, rfl⟩
    | succ n ih =>
      intro r m
      obtain ⟨m', h⟩ := ih (r + 1) (m.round 0x4B)
      exact ⟨m', by rw [mixRounds, hk]; exact h⟩
  obtain ⟨m, h⟩ := hm (ksaRounds 1) 0 { table := ksaFill, i := 0, j := 0 }
  have hg : keyedGenerator busy.key (keyLength 1) = some (ksaFinish m).discard := by
    rw [keyedGenerator, ksaMix, show keyLength 1 = 1 from rfl, h]
    rfl
  have hr : rekey 1 busy = .next { busy with gen := (ksaFinish m).discard, ready := true } := by
    rw [rekey, hg]
  exact ⟨⟨_, hr⟩, ⟨_, hr⟩⟩

/-- GenerateStartsCounting, AddEntropyLoadsOnEitherPort. -/
theorem witness_ready_ports :
    (busy.port = .cmd ∧ busy.ready = true) ∧
    ∃ s : State, s.port = .ent ∧ s.ready = true :=
  ⟨by decide, { busy with port := .ent }, by decide⟩

/-- PrgaLoadStep, PrgaStoreStep (the last byte and one before it), EntropyStoreStep. -/
theorem witness_agent_steps :
    (∃ s : State, s.turns = [.generator] ∧ s.fault = false ∧ s.genPhase = .gen 1) ∧
    (∃ s : State, s.turns = [.generator] ∧ s.fault = false ∧
      s.genPhase = .prgaLoaded 1 0 0x80000000 ∧ roomFor s 1) ∧
    (∃ s : State, s.turns = [.generator] ∧ s.fault = false ∧
      s.genPhase = .prgaLoaded 2 0 0xFFFFFFFF ∧ roomFor s 1) ∧
    (∃ s : State, s.turns = [.entropy] ∧ s.fault = false ∧
      s.entPhase = .loaded 0xFFFF 0 0x4000FFFF) ∧
    (∃ s : State, s.turns = [.generator] ∧ s.fault = false ∧ s.genPhase = .entLoaded 0 0) :=
  ⟨⟨{ busy with turns := [.generator], genPhase := .gen 1 }, by decide⟩,
    ⟨{ busy with turns := [.generator], genPhase := .prgaLoaded 1 0 0x80000000 }, rfl, rfl, rfl,
      busy_room⟩,
    ⟨{ busy with turns := [.generator], genPhase := .prgaLoaded 2 0 0xFFFFFFFF }, rfl, rfl, rfl,
      busy_room⟩,
    ⟨{ busy with turns := [.entropy], entPhase := .loaded 0xFFFF 0 0x4000FFFF }, by decide⟩,
    ⟨{ busy with turns := [.generator], genPhase := .entLoaded 0 0 }, by decide⟩⟩

/-- PrgaOutputCases: u = i, u = j0, and neither (V-PRGA-5, V-PRGA-6, V-PRGA-1); AliasedPrgaStep
(V-PRGA-4). -/
theorem witness_prga_cases :
    (lowByte (prgaValue 0xEC 0x0000006D) = 0xC6 ∧ Table.read ksaFill 0x0B = 0xEC ∧
      (0xEC : Byte) + Table.read ksaFill 0xC6 = 0x0B) ∧
    (lowByte (prgaValue 0xEF 0x0000000D) = 0x09 ∧ Table.read ksaFill 0x16 = 0xEF ∧
      (0xEF : Byte) + Table.read ksaFill 0x09 = 0x09) ∧
    (lowByte (prgaValue 0xEC 0x80000001) = 0xEF ∧
      (0xEC : Byte) + Table.read ksaFill 0xEF = 0x5C) ∧
    lowByte (prgaValue 0xEC 0x8000000F) = 0x0B := by decide +kernel

/-- FullOutputFifoHoldsTheStore: a full FIFO, with the generator's turn, with the host's turn, and an
unbounded FIFO. -/
theorem witness_full_fifo :
    (∃ s : State, s.fault = false ∧ s.genPhase = .prgaLoaded 1 0 0 ∧
      s.params.outFifoDepth = .bounded 1 ∧ s.outFifo.length = 1 ∧ s.turns = [.generator]) ∧
    (∃ s : State, s.fault = false ∧ s.genPhase = .prgaLoaded 1 0 0 ∧
      s.params.outFifoDepth = .bounded 1 ∧ s.outFifo.length = 1 ∧ presents s 0 [] 0x010 .read) ∧
    (∃ s : State, s.fault = false ∧ s.genPhase = .prgaLoaded 1 0 0 ∧
      s.params.outFifoDepth = .unbounded) :=
  ⟨⟨{ busy with params := { busy.params with outFifoDepth := .bounded 1 }, turns := [.generator],
                genPhase := .prgaLoaded 1 0 0 }, by decide⟩,
    ⟨{ asked 0x010 .read with params := { busy.params with outFifoDepth := .bounded 1 },
                              genPhase := .prgaLoaded 1 0 0 }, rfl, rfl, rfl, rfl, rfl, rfl⟩,
    ⟨{ State.reset with genPhase := .prgaLoaded 1 0 0 }, by decide⟩⟩

/-- GenerateEmitsItsStream, with one byte and with none. -/
theorem witness_generate_run :
    (∃ s : State, idleAndReady s ∧ decode 0x30000001 = .instr (.generate 1) ∧
      s.cmdFifo = [0x30000001] ∧
      s.turns = List.replicate (2 * (1 : BitVec 28).toNat + 1) .generator ++ [] ∧
      roomFor s (1 : BitVec 28).toNat) ∧
    (∃ s : State, idleAndReady s ∧ decode 0x30000000 = .instr (.generate 0) ∧
      s.cmdFifo = [0x30000000] ∧
      s.turns = List.replicate (2 * (0 : BitVec 28).toNat + 1) .generator ++ [] ∧
      roomFor s (0 : BitVec 28).toNat) :=
  ⟨⟨{ busy with cmdFifo := [0x30000001], turns := [.generator, .generator, .generator] },
      busy_idle, by decide, rfl, rfl, busy_room⟩,
    ⟨{ busy with cmdFifo := [0x30000000], turns := [.generator] },
      busy_idle, by decide, rfl, rfl, fun _ h => absurd h (Nat.not_lt_zero _)⟩⟩

/-- SplitGenerateIsOneGenerate. -/
theorem witness_split_generate :
    idleAndReady busy ∧ (1 : BitVec 28).toNat + (0 : BitVec 28).toNat < 2 ^ 28 ∧
    decode 0x30000001 = .instr (.generate 1) ∧ decode 0x30000000 = .instr (.generate 0) ∧
    decode 0x30000001 = .instr (.generate (1 + 0)) ∧
    roomFor busy ((1 : BitVec 28).toNat + (0 : BitVec 28).toNat) :=
  ⟨busy_idle, by decide, by decide, by decide, by decide, busy_room⟩

/-- ResetRepeatsTheStream. -/
theorem witness_reset_repeats :
    ∃ s : State, s.fault = false ∧ s.genPhase = .idle ∧ s.entPhase = .idle ∧
      1 ≤ (1 : BitVec 28).toNat ∧ (1 : BitVec 28).toNat ≤ s.params.keyBufBytes ∧
      keyHolds s (fun _ => 0x4B) (1 : BitVec 28).toNat ∧ roomFor s (2 * (1 : BitVec 28).toNat) ∧
      decode 0x10000001 = .instr (.init 1) ∧ decode 0x30000001 = .instr (.generate 1) ∧
      decode 0x20000001 = .instr (.reset 1) ∧
      s.cmdFifo = [0x10000001, 0x30000001, 0x20000001, 0x30000001] ∧
      s.turns = List.replicate (4 * (1 : BitVec 28).toNat + 4) .generator ++ [] :=
  ⟨{ busy with params := { busy.params with cmdFifoDepth := 4 }, outFifo := [],
               cmdFifo := [0x10000001, 0x30000001, 0x20000001, 0x30000001],
               turns := List.replicate 8 .generator },
    rfl, rfl, rfl, by decide, by decide, busy_key,
    fun k hk => decide_eq_true (show 0 + k < 2 by simpa using hk),
    by decide, by decide, by decide, rfl, rfl⟩

/-- UninterruptedAddEntropy (both clauses), SixInterleavings, TwoInjectorsLoseOneUpdate. -/
theorem witness_entropy_runs :
    (∃ s : State, s.fault = false ∧ s.ready = true ∧ s.entPhase = .idle ∧
      s.entReg = some 0x40008000 ∧ decode 0x40008000 = .instr (.addEntropy 0x8000) ∧
      s.turns = [.entropy, .entropy]) ∧
    (∃ s : State, idleAndReady s ∧ s.cmdFifo = [0x40008000] ∧ s.turns = [.generator, .generator]) ∧
    (∃ s : State, raceReady s 5 0x8000) ∧
    (∃ s : State, idleAndReady s ∧ s.entPhase = .idle ∧ s.cmdFifo = [0x40000001] ∧
      s.entReg = some 0x40000002 ∧ decode 0x40000001 = .instr (.addEntropy 1) ∧
      decode 0x40000002 = .instr (.addEntropy 2) ∧
      s.turns = [.generator, .entropy, .generator, .entropy] ++ []) :=
  ⟨⟨{ busy with entReg := some 0x40008000, turns := [.entropy, .entropy] }, by decide⟩,
    ⟨{ busy with cmdFifo := [0x40008000], turns := [.generator, .generator] }, busy_idle, rfl, rfl⟩,
    ⟨{ busy with genPhase := .gen 5, entReg := some 0x40008000 },
      rfl, rfl, rfl, rfl, ⟨0x40008000, rfl, by decide⟩, busy_room⟩,
    ⟨{ busy with cmdFifo := [0x40000001], entReg := some 0x40000002,
                 turns := [.generator, .entropy, .generator, .entropy] },
      busy_idle, rfl, rfl, rfl, by decide, by decide, rfl⟩⟩

/-- EntropyReachesIndexWithinSixteenSteps, at both ends of the range of k. -/
theorem witness_propagation :
    ((∀ b, b < 16 → (0x00000000 : Word).getLsbD b = (0x00010000 : Word).getLsbD b) ∧
      (0x00000000 : Word).getLsbD 16 ≠ (0x00010000 : Word).getLsbD 16) ∧
    ((∀ b, b < 31 → (0x00000000 : Word).getLsbD b = (0x80000000 : Word).getLsbD b) ∧
      (0x00000000 : Word).getLsbD 31 ≠ (0x80000000 : Word).getLsbD 31) := by decide

/-- The host's statements: each register is presented by some state, with the cases of R57 to R59. -/
theorem witness_host_cases :
    (∀ off op, presents (asked off op) 0 [] off op) ∧
    (∃ s : State, presents s 0 [] 0x008 (.write 7) ∧ s.fault = false ∧
      s.cmdFifo.length = s.params.cmdFifoDepth) ∧
    (asked 0x008 (.write 7)).cmdFifo.length < (asked 0x008 (.write 7)).params.cmdFifoDepth ∧
    (∃ s : State, presents s 0 [] 0x00C (.write 7) ∧ s.fault = false ∧ s.entReg ≠ none) ∧
    (asked 0x00C (.write 7)).entReg = none ∧ (asked 0x010 .read).outFifo = [0x5A] ∧
    (∃ s : State, presents s 0 [] 0x010 .read ∧ s.outFifo = []) ∧
    4 * 64 + 3 < (asked 0x200 (.write 7)).params.keyBufBytes :=
  ⟨asked_presents,
    ⟨{ asked 0x008 (.write 7) with cmdFifo := [1, 2] }, ⟨rfl, rfl⟩, rfl, rfl⟩, by decide,
    ⟨{ asked 0x00C (.write 7) with entReg := some 1 }, ⟨rfl, rfl⟩, rfl, by decide⟩, rfl, rfl,
    ⟨{ asked 0x010 .read with outFifo := [] }, ⟨rfl, rfl⟩, rfl⟩, by decide⟩

/-- The offsets of WrongWayAccessesDoNothing and ReservedOffsetsReadZero meet at these boundaries
(KEY_BUF_BYTES = 260): each offset reaches the register of R54 that its clause speaks of. -/
theorem witness_offset_boundaries :
    hostReg busy.params 0x014 = .outCount ∧ hostReg busy.params 0x018 = .reserved ∧
    hostReg busy.params 0x0FC = .reserved ∧ hostReg busy.params 0x100 = .key 0 ∧
    hostReg busy.params (0x100 + 256) = .key 64 ∧ hostReg busy.params (0x100 + 260) = .reserved := by
  decide

/-- MisshapenAccessIsRefused (each disjunct) and AccessBelowWindowIsRefused. -/
theorem witness_refused_accesses :
    (∃ s : State, ∃ a, s.turns = [.host 0] ∧ s.hostQueue[0]? = some (.access a) ∧
      s.params.hostBase ≤ a.addr ∧ a.width ≠ 32) ∧
    (∃ s : State, ∃ a, s.turns = [.host 0] ∧ s.hostQueue[0]? = some (.access a) ∧
      s.params.hostBase ≤ a.addr ∧ (a.addr - s.params.hostBase) % 4 ≠ 0) ∧
    (∃ s : State, ∃ a, s.turns = [.host 0] ∧ s.hostQueue[0]? = some (.access a) ∧
      a.addr < s.params.hostBase) :=
  ⟨⟨{ busy with turns := [.host 0], hostQueue := [.access ⟨0x1000, 8, .read⟩] }, _, rfl, rfl, by decide,
      by decide⟩,
    ⟨{ busy with turns := [.host 0], hostQueue := [.access ⟨0x1002, 32, .read⟩] }, _, rfl, rfl, by decide,
      by decide⟩,
    ⟨{ busy with turns := [.host 0], hostQueue := [.access ⟨0x0FFC, 32, .read⟩] }, _, rfl, rfl, by decide⟩⟩

/-- HostCannotSeeTheGenerator, PowerOnResetClearsTheCore, NothingSurvivesPowerOnReset,
AgentsWriteOnlyTheirOwnState, OutputFifoKeepsOrder: a turn of each kind that answers a next state. -/
theorem witness_turns :
    (∃ s t : State, currentTurn s = .generator ∧ step s = .next t ∧ t ≠ s) ∧
    (∃ s t : State, currentTurn s = .entropy ∧ step s = .next t ∧ t.entPhase ≠ s.entPhase) ∧
    (∃ s t : State, currentTurn s = .host 0 ∧ step s = .next t ∧ t.outFifo ≠ s.outFifo) ∧
    (∃ s t : State, currentTurn s = .por ∧ s.turns = [.por] ∧ step s = .next t ∧
      t.ready ≠ s.ready) :=
  ⟨⟨{ busy with turns := [.generator], cmdFifo := [0x30000001] }, _, rfl, rfl,
      fun h => absurd (congrArg State.cmdFifo h) (by decide)⟩,
    ⟨{ busy with turns := [.entropy], entReg := some 0x40000001 }, _, rfl, rfl, by decide⟩,
    ⟨asked 0x010 .read, _, rfl, rfl, by decide⟩,
    ⟨{ busy with turns := [.por] }, _, rfl, rfl, rfl, by decide⟩⟩

/-- ReadyRisesOnlyByInit: READY falls, and READY rises. -/
theorem witness_ready_changes :
    (∃ s t : State, step s = .next t ∧ s.ready = true ∧ t.ready = false) ∧
    (∃ s t : State, step s = .next t ∧ s.ready = false ∧ t.ready = true) := by
  obtain ⟨⟨t, ht⟩, -⟩ := witness_rekey_completes
  refine ⟨⟨{ busy with turns := [.por] }, _, rfl, rfl, rfl⟩,
    ⟨{ busy with ready := false, turns := [.generator], cmdFifo := [0x10000001] }, ?_⟩⟩
  have hg : ∃ g, keyedGenerator busy.key (keyLength 1) = some g := by
    rcases h : keyedGenerator busy.key (keyLength 1) with _ | g
    · have hr : rekey 1 busy = .fault .unwrittenKeyByte := by rw [rekey, h]
      have : rekey 1 busy = .next t := ht
      rw [hr] at this
      cases this
    · exact ⟨g, rfl⟩
  obtain ⟨g, hg⟩ := hg
  refine ⟨{ busy with ready := true, gen := g }, ?_, rfl, rfl⟩
  show rekey 1 { busy with ready := false } = _
  rw [rekey]
  show (match keyedGenerator busy.key (keyLength 1) with
    | some g => Host.Outcome.next { busy with ready := true, gen := g }
    | none => Host.Outcome.fault Fault.unwrittenKeyByte) = _
  rw [hg]

/-- QuiescentCoreIsNotBusy: an idle core; R229's run and R230's, idle and faulted. -/
theorem witness_quiescent :
    (quiescent State.reset = true ∧ State.reset.fault = false) ∧
    (∃ s : State, s.fault = false ∧ s.genPhase = .prgaLoaded 1 0xE9 0 ∧
      s.params.outFifoDepth = .bounded 2 ∧ s.outFifo.length = 2 ∧ s.hostQueue = [.wait .gen] ∧
      s.turns = [.host 0, .entropy, .generator] ++ []) ∧
    (∃ s : State, s.genPhase = .idle ∧ s.cmdFifo = [] ∧ s.outFifo = [] ∧
      s.hostQueue = [.access { addr := s.params.hostBase + 0x010, width := 32, op := .read }] ∧
      s.turns = [.host 0, .entropy, .generator] ++ []) ∧
    (∃ s : State, s.fault = true ∧ s.outFifo = [] ∧
      s.hostQueue = [.access { addr := s.params.hostBase + 0x010, width := 32, op := .read }] ∧
      s.turns = [.host 0] ++ []) :=
  ⟨by decide,
    ⟨{ busy with outFifo := [1, 2], genPhase := .prgaLoaded 1 0xE9 0, hostQueue := [.wait .gen],
                 turns := [.host 0, .entropy, .generator] }, rfl, rfl, rfl, rfl, rfl, rfl⟩,
    ⟨{ asked 0x010 .read with outFifo := [], turns := [.host 0, .entropy, .generator] },
      rfl, rfl, rfl, rfl, rfl⟩,
    ⟨{ asked 0x010 .read with fault := true, outFifo := [] }, rfl, rfl, rfl, rfl⟩⟩

/-- EndStateIsUniqueAndLasting: a run that ends after one step, with bytes left to read. -/
theorem witness_end_state :
    ∃ s t : State, endState 1 s = some t ∧ t.outFifo = [0x5A] ∧ t.turns = [.generator] :=
  ⟨{ asked 0x000 .read with turns := [.host 0, .generator] }, _, rfl, rfl, rfl⟩

/-- StatusReadsReturnTheFields: a wait for each busy bit, over and not over. -/
theorem witness_waits :
    (∃ s : State, s.turns = [.host 0] ∧ s.hostQueue[0]? = some (.wait .gen) ∧
      (statusWord s).getLsbD 3 = true) ∧
    (∃ s : State, s.turns = [.host 0] ∧ s.hostQueue[0]? = some (.wait .ent) ∧
      (statusWord s).getLsbD 2 = false) :=
  ⟨⟨{ busy with turns := [.host 0], hostQueue := [.wait .gen], cmdFifo := [0] }, by decide⟩,
    ⟨{ busy with turns := [.host 0], hostQueue := [.wait .ent] }, by decide⟩⟩

/-- ResetMeetsInvariant: parameters that R6 allows, at the bounds of its constraints. -/
theorem witness_params : Params.wf ⟨260, .bounded 1, 1, 0⟩ ∧
    Params.wf ⟨2 ^ 28 - 4, .unbounded, 1, 0x1000⟩ := by decide

/-- ExclusivityProtocolPreventsOverlap: with a fault taken. -/
theorem witness_exclusivity :
    ∃ s t : State, noEntropyWork s ∧ step s = .next t ∧ s.fault = false ∧ t.fault = true :=
  ⟨{ busy with turns := [.generator], cmdFifo := [0x10000000] }, _,
    ⟨rfl, rfl, fun _ h => by cases h⟩, rfl, rfl, rfl⟩

/-- EntropyFixedPoints: each clause. -/
theorem witness_fixed_points : highHalf 0x00001234 = 0x0000 ∧ highHalf 0xFFFF00AB = 0xFFFF ∧
    highHalf 0x0001ABCD = 0x0001 ∧
    (0xFFFF : Half) = highHalf 0x0001ABCD - (highHalf 0x0001ABCD).rotateLeft 1 := by decide

/-- StepKeepsInvariant: a state that meets the invariant, initialised and with work to do. -/
theorem witness_invariant :
    ∃ s t : State, MachineInv s ∧ s.ready = true ∧ s.key ≠ [] ∧ step s = .next t ∧ t ≠ s := by
  have hperm : Table.isPermutation ksaFill := by decide +kernel
  refine ⟨{ busy with turns := [.entropy], entReg := some 0x40000001 }, _, ?_, rfl, by decide, rfl,
    fun h => absurd (congrArg State.entReg h) (by decide)⟩
  exact {
    params_wf := by decide
    table_permutation := fun _ => hperm
    out_within_depth := fun n h => by cases h; decide
    cmd_within_depth := by decide
    key_canonical := by decide
    key_within_buffer := by decide
    no_fault_fields := fun _ => ⟨rfl, rfl, rfl⟩
    fault_cause := fun h => by cases h
    gen_busy_ready := fun _ => rfl
    ent_busy_ready := fun _ => rfl
    remaining_pos := fun rem h => by cases h
    loaded_byte := fun rem a seen h => by cases h
    ent_word := fun e seen w h => by cases h }

end Sys2Proof.Tests
end

namespace Sys2Proof.Machine

/-! ## KSA_FILL builds a permutation (40_ksa_init.md R112, 10_state.md R21) -/

theorem getElem_fillFrom {n k : Nat} (acc : Byte) (hk : k < (fillFrom n acc).length) :
    (fillFrom n acc)[k] = acc + fillStride * (BitVec.ofNat 8 k + 1) := by
  induction n generalizing acc k with
  | zero => simp [fillFrom] at hk
  | succ n ih =>
    cases k with
    | zero => simp [fillFrom]
    | succ k =>
      have hk' : k < (fillFrom n (acc + fillStride)).length := by simpa [fillFrom] using hk
      have hsucc : BitVec.ofNat 8 (k + 1) = BitVec.ofNat 8 k + 1 := BitVec.ofNat_add k 1
      simp only [fillFrom, List.getElem_cons_succ, ih _ hk', hsucc]
      ring

/-- R112: `T[k] = (FILL_STRIDE * (k + 1)) mod 256`. -/
theorem read_ksaFill (x : Byte) : Table.read ksaFill x = fillStride * (x + 1) := by
  have hx : x.toNat < (fillFrom tableSize 0).length := by rw [fillFrom_length]; exact x.isLt
  calc Table.read ksaFill x
    _ = (fillFrom tableSize 0)[x.toNat] := by
      simp only [Table.read, ksaFill, Vector.getElem_mk, List.getElem_toArray]
    _ = fillStride * (x + 1) := by
      rw [getElem_fillFrom 0 hx, BitVec.ofNat_toNat, BitVec.setWidth_eq, zero_add]

/-- FILL_STRIDE is a unit modulo 256: its inverse is 89. -/
theorem fillStride_mul_cancel (x : Byte) : 89 * (fillStride * x) = x := by
  rw [← mul_assoc, show (89 : Byte) * fillStride = 1 by decide, one_mul]

/-- A table that holds no value at two indices is a permutation (R21). -/
theorem Table.isPermutation_of_injective {t : Table} (h : Function.Injective (Table.read t)) :
    Table.isPermutation t := fun v => by
  have hnodup : t.toList.Nodup := by
    refine List.nodup_iff_injective_get.2 fun a b hab => ?_
    have hlen : t.toList.length = tableSize := Vector.length_toList
    have hread : Table.read t (.ofFin (a.cast hlen)) = Table.read t (.ofFin (b.cast hlen)) := hab
    exact Fin.cast_injective hlen (BitVec.ofFin.inj (h hread))
  obtain ⟨x, rfl⟩ := Finite.injective_iff_surjective.1 h v
  exact List.count_eq_one_of_mem hnodup (Vector.mem_toList_iff.2 (Vector.getElem_mem x.isLt))

theorem ksaFill_isPermutation : Table.isPermutation ksaFill :=
  Table.isPermutation_of_injective fun x y hxy => by
    rw [read_ksaFill, read_ksaFill] at hxy
    have h := congrArg (89 * ·) hxy
    simpa only [fillStride_mul_cancel, BitVec.add_left_inj] using h

/-- R115, R117: INIT and RESET build a generator state whose table is a permutation. -/
theorem keyedGenerator_isPermutation {key : Memory} {len : Nat} {g : Generator}
    (h : keyedGenerator key len = some g) : Table.isPermutation g.table := by
  obtain ⟨m, hm, rfl⟩ := Option.map_eq_some_iff.1 h
  have hmix : Table.isPermutation m.table :=
    mixRounds_keeps (P := fun m => Table.isPermutation m.table)
      (fun _ _ hp => Table.isPermutation_swap _ _ hp) ksaFill_isPermutation hm
  exact Generator.discardSteps_keeps (P := fun g => Table.isPermutation g.table)
    (fun g hp => Generator.store_isPermutation _ _ hp) discardLen (ksaFinish m) hmix

/-! ## What the invariant needs of single operations -/

/-- R191: the cause codes are 1 to 7. -/
theorem Cause.code_bounds (c : Cause) : 1 ≤ c.code.toNat ∧ c.code.toNat ≤ 7 := by
  cases c <;> decide

theorem FifoDepth.lt_of_hasRoom {d : FifoDepth} {n count : Nat} (hd : d = .bounded n)
    (h : FifoDepth.hasRoom d count = true) : count < n := by
  subst hd
  exact of_decide_eq_true h

/-- R34, R142: a phase after a byte that counts bytes counts at least one. -/
theorem phaseAfterByte_remaining_ne_zero {rem r : BitVec 28}
    (h : (phaseAfterByte rem).remaining = some r) : r ≠ 0 := by
  unfold phaseAfterByte at h
  split at h
  · cases h
  · next hne => exact Option.some.inj h ▸ sub_ne_zero.2 hne

/-- R142: after a byte no PRGA step is between its load and its store. -/
theorem phaseAfterByte_ne_prgaLoaded (rem r : BitVec 28) (a : Byte) (seen : Word) :
    phaseAfterByte rem ≠ .prgaLoaded r a seen := by
  unfold phaseAfterByte
  split <;> nofun

/-- R33, R61: a write inside the KEY window stores inside the key buffer. -/
theorem Memory.writeWord_within {k : Memory} {len off : Nat} {w : Word}
    (hk : ∀ c ∈ k, c.1 < len) (hlen : len % 4 = 0) (hlo : keyWindowOffset ≤ off)
    (hhi : off < keyWindowOffset + len) (hal : off % 4 = 0) :
    ∀ c ∈ k.writeWord ((off - keyWindowOffset) / 4) w, c.1 < len := fun c hc => by
  unfold keyWindowOffset at *
  rcases Memory.mem_writeWord hc with ⟨-, h⟩ | h
  · omega
  · exact hk c h

/-! ## Each update of the state keeps the invariant -/

theorem machineInv_reset {p : Params} (hp : p.wf) :
    MachineInv { State.reset with params := p } where
  params_wf := hp
  table_permutation := nofun
  out_within_depth := fun _ _ => Nat.zero_le _
  cmd_within_depth := Nat.zero_le _
  key_canonical := .nil
  key_within_buffer := nofun
  no_fault_fields := fun _ => ⟨rfl, rfl, rfl⟩
  fault_cause := nofun
  gen_busy_ready := fun h => absurd rfl h
  ent_busy_ready := fun h => absurd rfl h
  remaining_pos := nofun
  loaded_byte := nofun
  ent_word := nofun

theorem machineInv_powerOnReset {s : State} (hp : s.params.wf) : MachineInv (powerOnReset s) :=
  { machineInv_reset hp with }

section
variable {s : State} (h : MachineInv s)
include h

theorem machineInv_turnTaken : MachineInv (turnTaken s) := by
  unfold turnTaken
  split <;> exact { h with }

theorem machineInv_onPort (p : Port) : MachineInv (onPort p s) := { h with }

theorem machineInv_raiseFault (c : Cause) (p : Port) (w : Word) :
    MachineInv (raiseFault c p w s) :=
  { h with
    no_fault_fields := nofun
    fault_cause := fun _ => c.code_bounds }

/-- INIT and RESET: the generator agent is idle, so no loaded byte goes stale. -/
theorem machineInv_rekeyed {len : Nat} {g : Generator} (hidle : s.genPhase = .idle)
    (hg : keyedGenerator s.key len = some g) :
    MachineInv { s with gen := g, ready := true } :=
  { h with
    table_permutation := fun _ => keyedGenerator_isPermutation hg
    gen_busy_ready := fun _ => rfl
    ent_busy_ready := fun _ => rfl
    loaded_byte := fun rem a seen hl => by simp [hidle] at hl }

theorem machineInv_generateStarted {n : BitVec 28} (hr : s.ready = true) (hn : n ≠ 0) :
    MachineInv { s with genPhase := .gen n } :=
  { h with
    gen_busy_ready := fun _ => hr
    remaining_pos := fun _ hrem => Option.some.inj hrem ▸ hn
    loaded_byte := nofun }

theorem machineInv_cmdEntropyLoaded (e : Half) (seen : Word) (hr : s.ready = true) :
    MachineInv { s with genPhase := .entLoaded e seen } :=
  { h with
    gen_busy_ready := fun _ => hr
    remaining_pos := nofun
    loaded_byte := nofun }

theorem machineInv_entEntropyLoaded (e : Half) (seen : Word) (hr : s.ready = true) :
    MachineInv { s with entPhase := .loaded e seen (encode (.addEntropy e)) } :=
  { h with
    ent_busy_ready := fun _ => hr
    ent_word := fun e' seen' w hw => by cases hw; rfl }

theorem machineInv_cmdEntropyStore (e : Half) (seen : Word) :
    MachineInv (cmdEntropyStore e seen s) :=
  { h with
    gen_busy_ready := fun hn => absurd rfl hn
    remaining_pos := nofun
    loaded_byte := nofun }

theorem machineInv_entEntropyStore (e : Half) (seen : Word) :
    MachineInv (entEntropyStore e seen s) :=
  { h with
    ent_busy_ready := fun hn => absurd rfl hn
    ent_word := nofun }

theorem machineInv_prgaLoad {rem : BitVec 28} (hp : s.genPhase = .gen rem) :
    MachineInv (prgaLoad rem s) :=
  { h with
    gen_busy_ready := fun _ => h.gen_busy_ready (by simp [hp])
    remaining_pos := fun r hr => h.remaining_pos r (by rw [hp]; exact hr)
    loaded_byte := fun _ _ _ hl => by cases hl; rfl }

theorem machineInv_prgaStore {rem : BitVec 28} {a : Byte} {seen : Word}
    (hp : s.genPhase = .prgaLoaded rem a seen)
    (hroom : FifoDepth.hasRoom s.params.outFifoDepth s.outFifo.length = true) :
    MachineInv (prgaStore rem a seen s) :=
  { h with
    table_permutation := fun hr => Generator.store_isPermutation a seen (h.table_permutation hr)
    out_within_depth := fun n hn => by
      have hlt : s.outFifo.length < n := FifoDepth.lt_of_hasRoom hn hroom
      simpa using hlt
    gen_busy_ready := fun _ => h.gen_busy_ready (by simp [hp])
    remaining_pos := fun _ hr => phaseAfterByte_remaining_ne_zero hr
    loaded_byte := fun r b x hl => absurd hl (phaseAfterByte_ne_prgaLoaded rem r b x) }

theorem machineInv_cmdConsumed {w : Word} {rest : List Word} (hw : s.cmdFifo = w :: rest) :
    MachineInv { s with cmdFifo := rest } :=
  { h with
    cmd_within_depth := by
      have hlen := h.cmd_within_depth
      rw [hw] at hlen
      exact Nat.le_of_succ_le hlen }

/-! ## Each agent's turn keeps the invariant -/

/-- The CMD port's words are taken only by an idle generator agent (R72), which is what lets INIT and
RESET replace the table; the ENT port's words cannot rekey (R193 check 2). -/
theorem exec_keeps_machineInv {i : Instr} {t : State}
    (hidle : s.port = .cmd → s.genPhase = .idle) (he : exec i s = .next t) : MachineInv t := by
  rcases exec_cases he with ⟨c, ho⟩ | ⟨L, g, -, hp, -, -, -, hg, ho⟩ | ⟨L, -, -, -, ho⟩ |
    ⟨-, -, -, ho⟩ | ⟨n, -, hn, -, hr, ho⟩ | ⟨e, -, -, hr, ho⟩ | ⟨e, -, -, hr, ho⟩ <;> cases ho
  · exact machineInv_raiseFault h c _ _
  · exact machineInv_rekeyed h (hidle hp) hg
  · exact h
  · exact machineInv_generateStarted h hr hn
  · exact machineInv_cmdEntropyLoaded h e _ hr
  · exact machineInv_entEntropyLoaded h e _ hr

theorem takeWord_keeps_machineInv {p : Port} {w : Word} {t : State}
    (hidle : p = .cmd → s.genPhase = .idle) (ht : takeWord p w s = .next t) : MachineInv t := by
  rcases takeWord_cases ht with ⟨c, -, ho⟩ | ⟨i, -, he⟩
  · cases ho
    exact machineInv_raiseFault (machineInv_onPort h p) c p w
  · exact exec_keeps_machineInv (machineInv_onPort h p) hidle he

theorem generatorTurn_keeps_machineInv {t : State} (ht : generatorTurn s = .next t) :
    MachineInv t := by
  rcases generatorTurn_cases ht with ho | ⟨w, rest, -, hp, hw, ho⟩ | ⟨rem, -, hp, ho⟩ |
    ⟨rem, a, seen, -, hp, hroom, ho⟩ | ⟨e, seen, -, -, ho⟩
  · cases ho; exact h
  · exact takeWord_keeps_machineInv (machineInv_cmdConsumed h hw) (fun _ => hp) ho
  · cases ho; exact machineInv_prgaLoad h hp
  · cases ho; exact machineInv_prgaStore h hp hroom
  · cases ho; exact machineInv_cmdEntropyStore h e seen

theorem entropyTurn_keeps_machineInv {t : State} (ht : entropyTurn s = .next t) :
    MachineInv t := by
  rcases entropyTurn_cases ht with ho | ⟨w, -, -, -, ho⟩ | ⟨e, seen, w, -, -, ho⟩
  · cases ho; exact h
  · have hs : MachineInv { s with entReg := none } := { h with }
    exact takeWord_keeps_machineInv hs (fun hp => by cases hp) ho
  · cases ho; exact machineInv_entEntropyStore h e seen

theorem hostAccess_keeps_machineInv {a : HostAccess} {t : State} {v : Option Word}
    (ha : hostAccess a s = .done t v) : MachineInv t := by
  rcases hostAccess_done_cases ha with rfl | ⟨b, rest, hout, rfl, -⟩ | ⟨w, -, hlen, rfl⟩ |
    ⟨w, -, -, rfl⟩ | ⟨off, m, w, hlo, hhi, hal, rfl, rfl⟩
  · exact h
  · exact { h with
      out_within_depth := fun n hn => by
        have hle := h.out_within_depth n hn
        rw [hout] at hle
        exact Nat.le_of_succ_le hle }
  · exact { h with cmd_within_depth := by simpa using hlen }
  · exact { h with }
  · obtain ⟨hmod, -⟩ := h.params_wf
    exact { h with
      key_canonical := Memory.wf_writeWord _ w h.key_canonical
      key_within_buffer := Memory.writeWord_within h.key_within_buffer hmod hlo hhi hal }

theorem hostTurn_keeps_machineInv {k : Nat} {t : State} (ht : hostTurn k s = .next t) :
    MachineInv t := by
  rcases hostTurn_cases ht with ho | ⟨a, u, v, -, ha, ho⟩ | ⟨a, r, -, -, ho⟩ <;> cases ho
  · exact h
  · have hu : MachineInv u := by
      rcases hostAct_done_cases ha with ⟨b, -, -, rfl, -⟩ | ⟨c, -, hc⟩
      · exact h
      · exact hostAccess_keeps_machineInv h hc
    exact { hu with }

theorem step_keeps_machineInv {t : State} (ht : step s = .next t) : MachineInv t := by
  have h' := machineInv_turnTaken h
  rcases step_cases ht with ⟨-, ho⟩ | ⟨-, ho⟩ | ⟨k, -, ho⟩ | ⟨-, ho⟩
  · exact generatorTurn_keeps_machineInv h' ho
  · exact entropyTurn_keeps_machineInv h' ho
  · exact hostTurn_keeps_machineInv h' ho
  · cases ho; exact machineInv_powerOnReset h'.params_wf

end

/-! ## No step changes the parameters (00_scope.md R6) -/

section
variable {s t : State}

theorem exec_params {i : Instr} (h : exec i s = .next t) : t.params = s.params := by
  rcases exec_cases h with ⟨_, ho⟩ | ⟨_, _, -, -, -, -, -, -, ho⟩ | ⟨_, -, -, -, ho⟩ |
    ⟨-, -, -, ho⟩ | ⟨_, -, -, -, -, ho⟩ | ⟨_, -, -, -, ho⟩ | ⟨_, -, -, -, ho⟩ <;> cases ho <;> rfl

theorem takeWord_params {p : Port} {w : Word} (h : takeWord p w s = .next t) :
    t.params = s.params := by
  rcases takeWord_cases h with ⟨c, -, ho⟩ | ⟨i, -, he⟩
  · cases ho; rfl
  · exact exec_params (s := onPort p s) he

theorem generatorTurn_params (h : generatorTurn s = .next t) : t.params = s.params := by
  rcases generatorTurn_cases h with ho | ⟨w, rest, -, -, -, ho⟩ | ⟨_, -, -, ho⟩ |
    ⟨_, _, _, -, -, -, ho⟩ | ⟨_, _, -, -, ho⟩
  · cases ho; rfl
  · exact takeWord_params (s := { s with cmdFifo := rest }) ho
  all_goals cases ho; rfl

theorem entropyTurn_params (h : entropyTurn s = .next t) : t.params = s.params := by
  rcases entropyTurn_cases h with ho | ⟨w, -, -, -, ho⟩ | ⟨_, _, _, -, -, ho⟩
  · cases ho; rfl
  · exact takeWord_params (s := { s with entReg := none }) ho
  · cases ho; rfl

theorem hostAct_params {a : HostAction} {v : Option Word} (h : hostAct a s = .done t v) :
    t.params = s.params := by
  rcases hostAct_done_cases h with ⟨_, -, -, rfl, -⟩ | ⟨c, -, hc⟩
  · rfl
  · rcases hostAccess_done_cases hc with rfl | ⟨_, _, -, rfl, -⟩ | ⟨_, -, -, rfl⟩ |
      ⟨_, -, -, rfl⟩ | ⟨_, _, _, -, -, -, -, rfl⟩ <;> rfl

theorem hostTurn_params {k : Nat} (h : hostTurn k s = .next t) : t.params = s.params := by
  rcases hostTurn_cases h with ho | ⟨_, u, _, -, ha, ho⟩ | ⟨_, _, -, -, ho⟩ <;> cases ho
  · rfl
  · exact hostAct_params (t := u) ha

theorem step_params (h : step s = .next t) : t.params = s.params := by
  rw [← turnTaken_params s]
  rcases step_cases h with ⟨-, ho⟩ | ⟨-, ho⟩ | ⟨k, -, ho⟩ | ⟨-, ho⟩
  · exact generatorTurn_params ho
  · exact entropyTurn_params ho
  · exact hostTurn_params ho
  · cases ho; rfl

end

/-- Settles O58: the update that each turn makes keeps each clause of the invariant. -/
theorem stepKeepsInvariant : Obligations.StepKeepsInvariant :=
  fun _ _ h ht => ⟨step_keeps_machineInv h ht, step_params ht⟩

/-- Settles O59: with every clause's field at its value of R40, no clause asks more of the parameters
than R6 does. -/
theorem resetMeetsInvariant : Obligations.ResetMeetsInvariant :=
  ⟨fun _ => machineInv_powerOnReset, fun _ => machineInv_reset,
    machineInv_reset (p := paramsAtReset) (by decide)⟩

end Sys2Proof.Machine

namespace Sys2Proof.Machine

open Sys2Proof.Spec

/-! ## INIT and RESET stop exactly on a key byte without a value (10_state.md R41, R121) -/

/-- R113: KSA_MIX has a round for every key byte. -/
theorem le_ksaRounds (len : Nat) : len ≤ ksaRounds len := by
  unfold ksaRounds
  split <;> omega

theorem keyedGenerator_eq_none_iff {key : Memory} {len : Nat} (hlen : 1 ≤ len) :
    keyedGenerator key len = none ↔ ∃ x, x < len ∧ key.read x = none := by
  rw [keyedGenerator, Option.map_eq_none_iff, ksaMix]
  constructor
  · intro hnone
    by_contra! hall
    have hsome := mixRounds_isSome (key := key) (len := len) (n := ksaRounds len) (r := 0)
      { table := ksaFill, i := 0, j := 0 }
      fun k _ _ => Option.isSome_iff_ne_none.2 (hall (k % len) (Nat.mod_lt k hlen))
    rw [hnone] at hsome
    cases hsome
  · rintro ⟨x, hx, hread⟩
    exact mixRounds_eq_none _ (Nat.zero_le x) (by have := le_ksaRounds len; omega)
      (by rw [keyByte, Nat.mod_eq_of_lt hx, hread])

/-- R181: an INIT or RESET that meets no check runs the body they share. -/
theorem exec_keyCommand {s : State} {L : BitVec 28} {i : Instr} (hlegal : keyCommandLegal s L)
    (hi : i = .init L ∨ (i = .reset L ∧ s.ready = true)) : exec i s = rekey L s := by
  rcases hi with rfl | ⟨rfl, hr⟩
  · change checked _ _ s _ = _
    rw [(initChecks_eq_none L s).2 hlegal, checked_none]
  · obtain ⟨hport, hbounds⟩ := hlegal
    change checked _ _ s _ = _
    rw [(resetChecks_eq_none L s).2 ⟨hport, hr, hbounds⟩, checked_none]

/-- Settles O15: KSA_MIX reads each of K[0] to K[L - 1], as it has at least L rounds, and no other
byte. -/
theorem unwrittenKeyByteStopsRekeying : Obligations.UnwrittenKeyByteStopsRekeying := by
  intro s L i hlegal hi
  have ⟨_, hlen, _⟩ := hlegal
  have hnone := keyedGenerator_eq_none_iff (key := s.key) hlen
  have hall : (∀ x, x < L.toNat → s.key.read x ≠ none) ↔ keyedGenerator s.key L.toNat ≠ none := by
    rw [Ne, hnone]
    push Not
    rfl
  rw [exec_keyCommand hlegal hi, ← hnone, hall]
  rcases rekey_cases (rfl : rekey L s = _) with ⟨g, hg, ho⟩ | ⟨hg, ho⟩ <;>
    rw [keyLength] at hg <;> simp [hg, ho]

/-! ## What each command writes (10_state.md R25, R33) -/

/-- `s` with the fields that the step taking a command may write as `t` has them. -/
def execWritten (t s : State) : State :=
  { s with
    gen := t.gen, ready := t.ready, fault := t.fault, cause := t.cause, faultPort := t.faultPort
    faultCmd := t.faultCmd, genPhase := t.genPhase, entPhase := t.entPhase }

section
variable {s t : State}

theorem exec_frame {i : Instr} (h : exec i s = .next t) : t = execWritten t s := by
  rcases exec_cases h with ⟨_, ho⟩ | ⟨_, _, -, -, -, -, -, -, ho⟩ | ⟨_, -, -, -, ho⟩ |
    ⟨-, -, -, ho⟩ | ⟨_, -, -, -, -, ho⟩ | ⟨_, -, -, -, ho⟩ | ⟨_, -, -, -, ho⟩ <;> cases ho <;> rfl

/-- INIT and RESET, which are this with their own checks, leave both phases. -/
theorem checked_rekey_keeps_phases {i : Instr} {found : Option Cause} {L : BitVec 28}
    (h : checked i found s (rekey L) = .next t) :
    t.genPhase = s.genPhase ∧ t.entPhase = s.entPhase := by
  rcases checked_cases h with ⟨_, -, ho⟩ | ⟨-, hb⟩
  · cases ho; exact ⟨rfl, rfl⟩
  · rcases rekey_cases hb with ⟨_, -, ho⟩ | ⟨-, ho⟩ <;> cases ho
    exact ⟨rfl, rfl⟩

theorem execGenerate_keeps_generator {n : BitVec 28} (h : execGenerate n s = .next t) :
    t.gen = s.gen ∧ t.ready = s.ready ∧ t.entPhase = s.entPhase := by
  rcases checked_cases h with ⟨_, -, ho⟩ | ⟨-, hb⟩
  · cases ho; exact ⟨rfl, rfl, rfl⟩
  · rcases startGenerate_cases hb with ⟨-, ho⟩ | ⟨-, ho⟩ <;> cases ho <;> exact ⟨rfl, rfl, rfl⟩

theorem execAddEntropy_keeps_generator {e : Half} (h : execAddEntropy e s = .next t) :
    t.gen = s.gen ∧ t.ready = s.ready := by
  rcases checked_cases h with ⟨_, -, ho⟩ | ⟨-, hb⟩
  · cases ho; exact ⟨rfl, rfl⟩
  · rcases loadEntropy_cases hb with ⟨-, ho⟩ | ⟨-, ho⟩ <;> cases ho <;> exact ⟨rfl, rfl⟩

end

/-- Settles O21: no command writes outside `execWritten`, and each leaves of that what the others
write. -/
theorem commandsKeepPortsAndKey : Obligations.CommandsKeepPortsAndKey := by
  intro i s t h
  rw [exec_frame h]
  refine ⟨rfl, rfl, rfl, fun _ => rfl, rfl, rfl, rfl, rfl, rfl, rfl, ?_, ?_, ?_⟩
  · rintro n rfl
    exact execGenerate_keeps_generator (t := t) h
  · rintro e rfl
    exact execAddEntropy_keeps_generator (t := t) h
  · rintro L (rfl | rfl) <;> exact checked_rekey_keeps_phases (t := t) h

/-! ## What each agent's turn writes: the columns of 10_state.md R25 -/

/-- `s` with the fields that the generator agent may write as `t` has them. -/
def generatorWritten (t s : State) : State :=
  { s with
    gen := t.gen, ready := t.ready, fault := t.fault, cause := t.cause, faultPort := t.faultPort
    faultCmd := t.faultCmd, outFifo := t.outFifo, cmdFifo := t.cmdFifo, genPhase := t.genPhase
    port := t.port }

/-- `s` with the fields that the entropy agent may write as `t` has them: of the generator state only
`cursor_j`. -/
def entropyWritten (t s : State) : State :=
  { s with
    gen := { s.gen with cursorJ := t.gen.cursorJ }
    fault := t.fault, cause := t.cause, faultPort := t.faultPort, faultCmd := t.faultCmd
    entReg := t.entReg, entPhase := t.entPhase, port := t.port }

/-- `s` with the fields that the host may write as `t` has them. -/
def hostWritten (t s : State) : State :=
  { s with
    outFifo := t.outFifo, cmdFifo := t.cmdFifo, entReg := t.entReg, key := t.key
    hostQueue := t.hostQueue, hostReads := t.hostReads }

section
variable {s t : State}

theorem exec_cmd_frame {i : Instr} (hp : s.port = .cmd) (h : exec i s = .next t) :
    t = generatorWritten t s := by
  rcases exec_cases h with ⟨_, ho⟩ | ⟨_, _, -, -, -, -, -, -, ho⟩ | ⟨_, -, -, -, ho⟩ |
    ⟨-, -, -, ho⟩ | ⟨_, -, -, -, -, ho⟩ | ⟨_, -, -, -, ho⟩ | ⟨_, -, hent, -, ho⟩
  case inr.inr.inr.inr.inr.inr => simp [hp] at hent
  all_goals cases ho <;> rfl

/-- R193 check 2: on the ENT port only ADD_ENTROPY gets past the checks. -/
theorem exec_ent_portViolation {i : Instr} (hp : s.port = .ent) (hi : ∀ e, i ≠ .addEntropy e) :
    exec i s = .next (raiseFault .portViolation s.port (encode i) s) := by
  have hport : portFault s = some .portViolation := if_pos hp
  cases i with
  | init L => simp [exec, execInit, hport]
  | reset L => simp [exec, execReset, hport]
  | generate n => simp [exec, execGenerate, hport]
  | addEntropy e => exact absurd rfl (hi e)

theorem exec_ent_frame {i : Instr} (hp : s.port = .ent) (h : exec i s = .next t) :
    t = entropyWritten t s := by
  by_cases hi : ∃ e, i = .addEntropy e
  · obtain ⟨e, rfl⟩ := hi
    rcases checked_cases (h : execAddEntropy e s = _) with ⟨_, -, ho⟩ | ⟨-, hb⟩
    · cases ho; rfl
    · rcases loadEntropy_cases hb with ⟨hcmd, -⟩ | ⟨-, ho⟩
      · simp [hp] at hcmd
      · cases ho; rfl
  · rw [exec_ent_portViolation hp (not_exists.1 hi)] at h
    cases h
    rfl

theorem takeWord_cmd_frame {w : Word} (h : takeWord .cmd w s = .next t) :
    t = generatorWritten t s := by
  rcases takeWord_cases h with ⟨_, -, ho⟩ | ⟨_, -, he⟩
  · cases ho; rfl
  · exact exec_cmd_frame (s := onPort .cmd s) rfl he

theorem takeWord_ent_frame {w : Word} (h : takeWord .ent w s = .next t) :
    t = entropyWritten t s := by
  rcases takeWord_cases h with ⟨_, -, ho⟩ | ⟨_, -, he⟩
  · cases ho; rfl
  · exact exec_ent_frame (s := onPort .ent s) rfl he

theorem generatorTurn_frame (h : generatorTurn s = .next t) : t = generatorWritten t s := by
  rcases generatorTurn_cases h with ho | ⟨_, rest, -, -, -, ho⟩ | ⟨_, -, -, ho⟩ |
    ⟨_, _, _, -, -, -, ho⟩ | ⟨_, _, -, -, ho⟩
  case inr.inl => exact takeWord_cmd_frame (s := { s with cmdFifo := rest }) ho
  all_goals cases ho; rfl

theorem entropyTurn_frame (h : entropyTurn s = .next t) : t = entropyWritten t s := by
  rcases entropyTurn_cases h with ho | ⟨_, -, -, -, ho⟩ | ⟨_, _, _, -, -, ho⟩
  case inr.inl => exact takeWord_ent_frame (s := { s with entReg := none }) ho
  all_goals cases ho; rfl

theorem hostAct_frame {a : HostAction} {v : Option Word} (h : hostAct a s = .done t v) :
    t = hostWritten t s := by
  rcases hostAct_done_cases h with ⟨_, -, -, rfl, -⟩ | ⟨_, -, hc⟩
  · rfl
  · rcases hostAccess_done_cases hc with rfl | ⟨_, _, -, rfl, -⟩ | ⟨_, -, -, rfl⟩ |
      ⟨_, -, -, rfl⟩ | ⟨_, _, _, -, -, -, -, rfl⟩ <;> rfl

theorem hostTurn_frame {k : Nat} (h : hostTurn k s = .next t) : t = hostWritten t s := by
  rcases hostTurn_cases h with ho | ⟨_, u, _, -, ha, ho⟩ | ⟨_, _, -, -, ho⟩ <;> cases ho
  · rfl
  · rw [hostAct_frame ha]; rfl

/-- R71: a step is a turn of whoever moves. -/
theorem step_of_currentTurn {u : Turn} (hu : currentTurn s = u) :
    step s = takeTurn u (turnTaken s) := by
  rw [step, hu]

theorem step_generator_frame (hu : currentTurn s = .generator) (h : step s = .next t) :
    t = generatorWritten t (turnTaken s) :=
  generatorTurn_frame ((step_of_currentTurn hu).symm.trans h)

theorem step_entropy_frame (hu : currentTurn s = .entropy) (h : step s = .next t) :
    t = entropyWritten t (turnTaken s) :=
  entropyTurn_frame ((step_of_currentTurn hu).symm.trans h)

theorem step_host_frame {k : Nat} (hu : currentTurn s = .host k) (h : step s = .next t) :
    t = hostWritten t (turnTaken s) :=
  hostTurn_frame ((step_of_currentTurn hu).symm.trans h)

theorem step_por_eq (hu : currentTurn s = .por) (h : step s = .next t) :
    t = powerOnReset (turnTaken s) := by
  cases (step_of_currentTurn hu).symm.trans h
  rfl

end

/-! ## READY (10_state.md R27) -/

section
variable {s t : State}

/-- A RESET that completes finds READY = 1 already (R183). -/
theorem exec_ready {i : Instr} (h : exec i s = .next t) :
    t.ready = s.ready ∨
      (t.ready = true ∧ t.fault = s.fault ∧ ∃ L, i = .init L) := by
  rcases exec_cases h with ⟨_, ho⟩ | ⟨L, _, hi, -, -, -, -, -, ho⟩ | ⟨_, -, -, -, ho⟩ |
    ⟨-, -, -, ho⟩ | ⟨_, -, -, -, -, ho⟩ | ⟨_, -, -, -, ho⟩ | ⟨_, -, -, -, ho⟩ <;> cases ho
  case inr.inl =>
    rcases hi with rfl | ⟨-, hr⟩
    · exact .inr ⟨rfl, rfl, L, rfl⟩
    · exact .inl hr.symm
  all_goals exact .inl rfl

theorem takeWord_ready {p : Port} {w : Word} (h : takeWord p w s = .next t) :
    t.ready = s.ready ∨
      (t.ready = true ∧ t.fault = s.fault ∧ ∃ L, decode w = .instr (.init L)) := by
  rcases takeWord_cases h with ⟨_, -, ho⟩ | ⟨i, hd, he⟩
  · cases ho; exact .inl rfl
  · rcases exec_ready he with hr | ⟨hr, hf, L, rfl⟩
    · exact .inl hr
    · exact .inr ⟨hr, hf, L, hd⟩

theorem generatorTurn_ready (h : generatorTurn s = .next t) :
    t.ready = s.ready ∨
      (t.ready = true ∧ s.genPhase = .idle ∧ t.fault = false ∧
        ∃ w ws L, s.cmdFifo = w :: ws ∧ decode w = .instr (.init L)) := by
  rcases generatorTurn_cases h with ho | ⟨w, ws, hf, hp, hw, ho⟩ | ⟨_, -, -, ho⟩ |
    ⟨_, _, _, -, -, -, ho⟩ | ⟨_, _, -, -, ho⟩
  case inr.inl =>
    rcases takeWord_ready ho with hr | ⟨hr, hft, L, hd⟩
    · exact .inl hr
    · exact .inr ⟨hr, hp, hft.trans hf, w, ws, L, hw, hd⟩
  all_goals cases ho; exact .inl rfl

/-- Everything a step does to READY. -/
theorem step_ready (h : step s = .next t) :
    t.ready = s.ready ∨ (currentTurn s = .por ∧ t.ready = false) ∨
      (t.ready = true ∧ currentTurn s = .generator ∧ s.genPhase = .idle ∧ t.fault = false ∧
        ∃ w ws L, s.cmdFifo = w :: ws ∧ decode w = .instr (.init L)) := by
  rcases step_cases h with ⟨hu, ho⟩ | ⟨-, ho⟩ | ⟨_, -, ho⟩ | ⟨hu, ho⟩
  · rcases generatorTurn_ready ho with hr | ⟨hr, hidle, hinit⟩
    · exact .inl (hr.trans (turnTaken_ready s))
    · rw [turnTaken_genPhase] at hidle
      rw [turnTaken_cmdFifo] at hinit
      exact .inr (.inr ⟨hr, hu, hidle, hinit⟩)
  · exact .inl ((congrArg State.ready (entropyTurn_frame ho)).trans (turnTaken_ready s))
  · exact .inl ((congrArg State.ready (hostTurn_frame ho)).trans (turnTaken_ready s))
  · cases ho; exact .inr (.inl ⟨hu, rfl⟩)

end

/-- Settles O53: by the cases of what a step does to READY. -/
theorem readyRisesOnlyByInit : Obligations.ReadyRisesOnlyByInit := by
  intro s t h
  rcases step_ready h with hr | ⟨hu, hr⟩ | ⟨hr, hinit⟩
  · rw [hr]
    exact ⟨fun h1 h0 => by simp [h1] at h0, fun h0 h1 => by simp [h0] at h1⟩
  · simp [hu, hr]
  · exact ⟨fun _ hlow => by simp [hr] at hlow, fun _ _ => hinit⟩

/-! ## Noninterference: when a change of the state that an agent does not read goes through its turn -/

section
variable {f : State → State} {s : State}

/-- A change `f` of the state that leaves the order of the turns alone (`hset`) and goes through the
turn of whoever moves goes through the step. -/
theorem step_commutes {u : Turn} (hu : currentTurn s = u)
    (hset : ∀ ts n, f { s with turns := ts, turnCount := n } =
      { f s with turns := ts, turnCount := n })
    (hturn : takeTurn u (f (turnTaken s)) = mapNext f (takeTurn u (turnTaken s))) :
    step (f s) = mapNext f (step s) := by
  have hself : f s = { f s with turns := s.turns, turnCount := s.turnCount } := hset _ _
  have hturns : (f s).turns = s.turns := by rw [hself]
  have hcount : (f s).turnCount = s.turnCount := by rw [hself]
  have hcurrent : currentTurn (f s) = u := by
    rw [← hu, currentTurn, currentTurn, hturns, hcount]
  have htaken : turnTaken (f s) = f (turnTaken s) := by
    unfold turnTaken
    rw [hturns, hcount]
    split <;> exact (hset _ _).symm
  rw [step_of_currentTurn hcurrent, step_of_currentTurn hu, htaken, hturn]

theorem checked_commutes {i : Instr} {found : Option Cause}
    {body : State → Host.Outcome State Fault Refusal}
    (hfault : ∀ c w, raiseFault c (f s).port w (f s) = f (raiseFault c s.port w s))
    (hbody : body (f s) = mapNext f (body s)) :
    checked i found (f s) body = mapNext f (checked i found s body) := by
  cases found with
  | some c => exact congrArg Host.Outcome.next (hfault c _)
  | none => exact hbody

theorem takeWord_commutes {p : Port} {w : Word}
    (hport : onPort p (f s) = f (onPort p s))
    (hfault : ∀ c, raiseFault c p w (f (onPort p s)) = f (raiseFault c p w (onPort p s)))
    (hexec : ∀ i, exec i (f (onPort p s)) = mapNext f (exec i (onPort p s))) :
    takeWord p w (f s) = mapNext f (takeWord p w s) := by
  unfold takeWord
  rw [hport]
  split
  · exact hexec _
  · exact congrArg Host.Outcome.next (hfault _)
  · exact congrArg Host.Outcome.next (hfault _)

end

/-! ### The host does not see the generator state (10_state.md R39) -/

/-- `s` with another generator state. -/
def withGen (g : Generator) (s : State) : State := { s with gen := g }

/-- The outcome of an access with `f` applied to the state it leaves. -/
def HostOutcome.mapState (f : State → State) : HostOutcome → HostOutcome
  | .done s v => .done (f s) v
  | .hold => .hold
  | .refused r => .refused r

section
variable (g : Generator) (s : State)

theorem readOutData_withGen :
    readOutData (withGen g s) = (readOutData s).mapState (withGen g) := by
  cases h : s.outFifo <;> simp [readOutData, withGen, h, HostOutcome.mapState]

theorem writeCmd_withGen (w : Word) :
    writeCmd w (withGen g s) = (writeCmd w s).mapState (withGen g) := by
  simp only [writeCmd, apply_ite (HostOutcome.mapState (withGen g))]
  rfl

theorem writeEnt_withGen (w : Word) :
    writeEnt w (withGen g s) = (writeEnt w s).mapState (withGen g) := by
  simp only [writeEnt, apply_ite (HostOutcome.mapState (withGen g))]
  rfl

theorem hostRead_withGen (r : HostReg) :
    hostRead r (withGen g s) = (hostRead r s).mapState (withGen g) := by
  cases r
  case outData => exact readOutData_withGen g s
  all_goals rfl

theorem hostWrite_withGen (r : HostReg) (w : Word) :
    hostWrite r w (withGen g s) = (hostWrite r w s).mapState (withGen g) := by
  cases r
  case cmd => exact writeCmd_withGen g s w
  case ent => exact writeEnt_withGen g s w
  all_goals rfl

theorem hostAccess_withGen (a : HostAccess) :
    hostAccess a (withGen g s) = (hostAccess a s).mapState (withGen g) := by
  obtain ⟨addr, width, op⟩ := a
  simp only [hostAccess, apply_ite (HostOutcome.mapState (withGen g))]
  cases op
  · simp only [hostRead_withGen]; rfl
  · simp only [hostWrite_withGen]; rfl

theorem hostAct_withGen (a : HostAction) :
    hostAct a (withGen g s) = (hostAct a s).mapState (withGen g) := by
  cases a with
  | access a => exact hostAccess_withGen g s a
  | wait b =>
    change hostWait b _ = (hostWait b s).mapState _
    simp only [hostWait, apply_ite (HostOutcome.mapState (withGen g))]
    cases b <;> rfl

theorem hostTurn_withGen (k : Nat) :
    hostTurn k (withGen g s) = mapNext (withGen g) (hostTurn k s) := by
  have hqueue : (withGen g s).hostQueue = s.hostQueue := rfl
  simp only [hostTurn, hqueue, hostAct_withGen]
  cases s.hostQueue[k]? with
  | none => rfl
  | some a => cases h : hostAct a s <;> simp only [h] <;> rfl

end

/-- Settles O49: no register's read or write, and no wait, depends on the generator state. -/
theorem hostCannotSeeTheGenerator : Obligations.HostCannotSeeTheGenerator := by
  intro s g k hu
  exact step_commutes (f := withGen g) hu (fun _ _ => rfl) (hostTurn_withGen g _ k)

/-! ### The generator agent does not see the ENT register (10_state.md R25) -/

/-- `s` with another content of the ENT register. -/
def withEntReg (r : Option Word) (s : State) : State := { s with entReg := r }

section
variable (r : Option Word) (s : State)

theorem rekey_withEntReg (L : BitVec 28) :
    rekey L (withEntReg r s) = mapNext (withEntReg r) (rekey L s) := by
  cases h : keyedGenerator s.key (keyLength L) <;> simp [rekey, withEntReg, h, mapNext]

theorem startGenerate_withEntReg (n : BitVec 28) :
    startGenerate n (withEntReg r s) = mapNext (withEntReg r) (startGenerate n s) := by
  unfold startGenerate
  split <;> rfl

theorem loadEntropy_withEntReg (e : Half) :
    loadEntropy e (withEntReg r s) = mapNext (withEntReg r) (loadEntropy e s) := by
  cases h : s.port <;> simp [loadEntropy, withEntReg, h, mapNext, atomicLoad]

theorem exec_withEntReg (i : Instr) :
    exec i (withEntReg r s) = mapNext (withEntReg r) (exec i s) := by
  have hfault : ∀ c w, raiseFault c (withEntReg r s).port w (withEntReg r s) =
      withEntReg r (raiseFault c s.port w s) := fun _ _ => rfl
  cases i with
  | init L => exact checked_commutes hfault (rekey_withEntReg r s L)
  | reset L => exact checked_commutes hfault (rekey_withEntReg r s L)
  | generate n => exact checked_commutes hfault (startGenerate_withEntReg r s n)
  | addEntropy e => exact checked_commutes hfault (loadEntropy_withEntReg r s e)

theorem generatorTurn_withEntReg :
    generatorTurn (withEntReg r s) = mapNext (withEntReg r) (generatorTurn s) := by
  have hfault : (withEntReg r s).fault = s.fault := rfl
  have hphase : (withEntReg r s).genPhase = s.genPhase := rfl
  have hcmd : (withEntReg r s).cmdFifo = s.cmdFifo := rfl
  unfold generatorTurn
  rw [hfault, hphase, hcmd]
  split
  · rfl
  split
  · split
    · next w rest _ =>
      exact takeWord_commutes (f := withEntReg r) (s := { s with cmdFifo := rest }) rfl
        (fun _ => rfl) (exec_withEntReg r _)
    · rfl
  · rfl
  · change (if FifoDepth.hasRoom s.params.outFifoDepth s.outFifo.length then _ else _) = _
    split <;> rfl
  · rfl

end

/-! ### The entropy agent does not see `T`, `cursor_i`, K, the output FIFO or the CMD FIFO (R25, R169) -/

/-- `s` with other contents of what the entropy agent never accesses. -/
def withUnseenByEntropy (T : Table) (ci : Byte) (K : Memory) (out : List Byte) (cmds : List Word)
    (s : State) : State :=
  { s with
    gen := { table := T, cursorI := ci, cursorJ := s.gen.cursorJ }
    key := K, outFifo := out, cmdFifo := cmds }

section
variable (T : Table) (ci : Byte) (K : Memory) (out : List Byte) (cmds : List Word) (s : State)

/-- INIT, RESET and GENERATE end in PORT_VIOLATION, so the ENT port never reads K. -/
theorem exec_withUnseenByEntropy (i : Instr) (hp : s.port = .ent) :
    exec i (withUnseenByEntropy T ci K out cmds s) =
      mapNext (withUnseenByEntropy T ci K out cmds) (exec i s) := by
  by_cases hi : ∃ e, i = .addEntropy e
  · obtain ⟨e, rfl⟩ := hi
    refine checked_commutes (fun _ _ => rfl) ?_
    simp [loadEntropy, withUnseenByEntropy, hp, mapNext, atomicLoad]
  · rw [exec_ent_portViolation hp (not_exists.1 hi),
      exec_ent_portViolation (s := withUnseenByEntropy T ci K out cmds s) hp (not_exists.1 hi)]
    rfl

theorem entropyTurn_withUnseenByEntropy :
    entropyTurn (withUnseenByEntropy T ci K out cmds s) =
      mapNext (withUnseenByEntropy T ci K out cmds) (entropyTurn s) := by
  have hfault : (withUnseenByEntropy T ci K out cmds s).fault = s.fault := rfl
  have hphase : (withUnseenByEntropy T ci K out cmds s).entPhase = s.entPhase := rfl
  have hent : (withUnseenByEntropy T ci K out cmds s).entReg = s.entReg := rfl
  unfold entropyTurn
  rw [hfault, hphase, hent]
  split
  · rfl
  split
  · split
    · exact takeWord_commutes (f := withUnseenByEntropy T ci K out cmds)
        (s := { s with entReg := none }) rfl (fun _ => rfl)
        fun i => exec_withUnseenByEntropy T ci K out cmds _ i rfl
    · rfl
  · rfl

end

/-- Settles O52: the frame of each turn gives what an agent does not write, and a change of what it
does not read goes through its turn. -/
theorem agentsWriteOnlyTheirOwnState : Obligations.AgentsWriteOnlyTheirOwnState := by
  refine ⟨fun s t h => ⟨fun hu => ?_, fun hu => ?_, fun k hu => ?_, fun hu => ?_⟩,
    fun s T ci K out cmds hu => ?_, fun s r hu => ?_⟩
  · rw [step_entropy_frame hu h]
    simp [entropyWritten]
  · rw [step_generator_frame hu h]
    simp [generatorWritten]
  · rw [step_host_frame hu h]
    simp [hostWritten]
  · rw [step_por_eq hu h]
    simp
  · exact step_commutes (f := withUnseenByEntropy T ci K out cmds) hu (fun _ _ => rfl)
      (entropyTurn_withUnseenByEntropy T ci K out cmds _)
  · exact step_commutes (f := withEntReg r) hu (fun _ _ => rfl) (generatorTurn_withEntReg r _)

end Sys2Proof.Machine

namespace Sys2Proof.Machine

open Sys2Proof.Spec

/-! ## The steps of the two agents, one equation per row of 20_memory.md R72 and R73 -/

section
variable {s t : State} {p : Port} {w : Word}

/-- R99: a word that decodes to a command runs that command on its port. -/
theorem takeWord_of_decode {i : Instr} (hd : decode w = .instr i) :
    takeWord p w s = exec i (onPort p s) := by
  rw [takeWord, hd]

/-- G_TAKE. -/
theorem generatorTurn_take {ws : List Word} (hf : s.fault = false) (hp : s.genPhase = .idle)
    (hw : s.cmdFifo = w :: ws) : generatorTurn s = takeWord .cmd w { s with cmdFifo := ws } := by
  simp [generatorTurn, hf, hp, hw]

/-- G_PRGA_LOAD. -/
theorem generatorTurn_gen {rem : BitVec 28} (hf : s.fault = false) (hp : s.genPhase = .gen rem) :
    generatorTurn s = .next (prgaLoad rem s) := by
  simp [generatorTurn, hf, hp]

/-- G_PRGA_STORE, with room in the output FIFO (R149). -/
theorem generatorTurn_prgaLoaded {rem : BitVec 28} {a : Byte} {seen : Word}
    (hf : s.fault = false) (hp : s.genPhase = .prgaLoaded rem a seen)
    (hroom : FifoDepth.hasRoom s.params.outFifoDepth s.outFifo.length = true) :
    generatorTurn s = .next (prgaStore rem a seen s) := by
  simp [generatorTurn, hf, hp, hroom]

/-- G_ENT_STORE. -/
theorem generatorTurn_entLoaded {e : Half} {seen : Word} (hf : s.fault = false)
    (hp : s.genPhase = .entLoaded e seen) :
    generatorTurn s = .next (cmdEntropyStore e seen s) := by
  simp [generatorTurn, hf, hp]

/-- E_LOAD, and the faults of the ENT port. -/
theorem entropyTurn_take (hf : s.fault = false) (hp : s.entPhase = .idle)
    (hw : s.entReg = some w) : entropyTurn s = takeWord .ent w { s with entReg := none } := by
  simp [entropyTurn, hf, hp, hw]

/-- E_STORE. -/
theorem entropyTurn_loaded {e : Half} {seen : Word} (hf : s.fault = false)
    (hp : s.entPhase = .loaded e seen w) :
    entropyTurn s = .next (entEntropyStore e seen s) := by
  simp [entropyTurn, hf, hp]

/-- Taking a word writes what a command may write, and the model's record of the port. -/
theorem takeWord_frame (h : takeWord p w s = .next t) : t = execWritten t (onPort p s) := by
  rcases takeWord_cases h with ⟨_, -, ho⟩ | ⟨_, -, he⟩
  · cases ho; rfl
  · exact exec_frame he

theorem generatorEnabled_iff : generatorEnabled s = true ↔ s.fault = false ∧
    ((s.genPhase = .idle ∧ ∃ w ws, s.cmdFifo = w :: ws) ∨ (∃ rem, s.genPhase = .gen rem) ∨
      (∃ rem a seen, s.genPhase = .prgaLoaded rem a seen ∧
        FifoDepth.hasRoom s.params.outFifoDepth s.outFifo.length = true) ∨
      ∃ e seen, s.genPhase = .entLoaded e seen) := by
  unfold generatorEnabled
  cases s.genPhase <;> cases s.cmdFifo <;> simp

theorem entropyEnabled_iff : entropyEnabled s = true ↔ s.fault = false ∧
    ((∃ e seen w, s.entPhase = .loaded e seen w) ∨
      (s.entPhase = .idle ∧ ∃ w, s.entReg = some w)) := by
  unfold entropyEnabled
  cases s.entPhase <;> cases s.entReg <;> simp [EntPhase.isLoaded]

/-- Every step of R72 changes the state: it shortens the CMD FIFO, lengthens the output FIFO or
leaves the phase it started in. -/
theorem generatorTurn_ne_of_enabled (h : generatorEnabled s = true) :
    generatorTurn s ≠ .next s := by
  intro hself
  obtain ⟨hf, ⟨hp, w, ws, hw⟩ | ⟨rem, hp⟩ | ⟨rem, a, seen, hp, hroom⟩ | ⟨e, seen, hp⟩⟩ :=
    generatorEnabled_iff.1 h
  · rw [generatorTurn_take hf hp hw] at hself
    have hcmd : s.cmdFifo = ws := congrArg State.cmdFifo (takeWord_frame hself)
    simp [hw] at hcmd
  · rw [generatorTurn_gen hf hp] at hself
    have hphase := congrArg State.genPhase (Host.Outcome.next.inj hself)
    simp [prgaLoad, hp] at hphase
  · rw [generatorTurn_prgaLoaded hf hp hroom] at hself
    have hout := congrArg State.outFifo (Host.Outcome.next.inj hself)
    simp [prgaStore] at hout
  · rw [generatorTurn_entLoaded hf hp] at hself
    have hphase := congrArg State.genPhase (Host.Outcome.next.inj hself)
    simp [cmdEntropyStore, hp] at hphase

theorem generatorTurn_of_not_enabled (h : generatorEnabled s = false) :
    generatorTurn s = .next s := by
  rw [← Bool.not_eq_true, generatorEnabled_iff] at h
  rcases generatorTurn_cases (rfl : generatorTurn s = _) with ho | ⟨w, ws, hf, hp, hw, -⟩ |
    ⟨rem, hf, hp, -⟩ | ⟨rem, a, seen, hf, hp, hroom, -⟩ | ⟨e, seen, hf, hp, -⟩
  · exact ho
  · exact absurd ⟨hf, .inl ⟨hp, w, ws, hw⟩⟩ h
  · exact absurd ⟨hf, .inr (.inl ⟨rem, hp⟩)⟩ h
  · exact absurd ⟨hf, .inr (.inr (.inl ⟨rem, a, seen, hp, hroom⟩))⟩ h
  · exact absurd ⟨hf, .inr (.inr (.inr ⟨e, seen, hp⟩))⟩ h

/-- Each step of R73 changes the state: E_LOAD empties the ENT register, E_STORE ends the phase. -/
theorem entropyTurn_ne_of_enabled (h : entropyEnabled s = true) : entropyTurn s ≠ .next s := by
  intro hself
  obtain ⟨hf, ⟨e, seen, w, hp⟩ | ⟨hp, w, hw⟩⟩ := entropyEnabled_iff.1 h
  · rw [entropyTurn_loaded hf hp] at hself
    have hphase := congrArg State.entPhase (Host.Outcome.next.inj hself)
    simp [entEntropyStore, hp] at hphase
  · rw [entropyTurn_take hf hp hw] at hself
    have hent : s.entReg = none := congrArg State.entReg (takeWord_frame hself)
    simp [hw] at hent

theorem entropyTurn_of_not_enabled (h : entropyEnabled s = false) : entropyTurn s = .next s := by
  rw [← Bool.not_eq_true, entropyEnabled_iff] at h
  rcases entropyTurn_cases (rfl : entropyTurn s = _) with ho | ⟨w, hf, hp, hw, -⟩ |
    ⟨e, seen, w, hf, hp, -⟩
  · exact ho
  · exact absurd ⟨hf, .inr ⟨hp, w, hw⟩⟩ h
  · exact absurd ⟨hf, .inl ⟨e, seen, w, hp⟩⟩ h

end

/-- Settles O55: each enabled step changes a field, and a turn does nothing but such steps. -/
theorem agentsActExactlyWhenEnabled : Obligations.AgentsActExactlyWhenEnabled :=
  ⟨fun _ => ⟨fun h => Bool.eq_false_iff.2 fun he => generatorTurn_ne_of_enabled he h,
      generatorTurn_of_not_enabled⟩,
    fun _ => ⟨fun h => Bool.eq_false_iff.2 fun he => entropyTurn_ne_of_enabled he h,
      entropyTurn_of_not_enabled⟩⟩

/-- Settles O5: the step is the agent's turn, the turn takes the word, and the word runs its
command. -/
theorem stepRunsTheDecodedCommand : Obligations.StepRunsTheDecodedCommand := by
  refine ⟨fun s w ws ts i hts hf hp hw hd => ?_, fun s w ts i hts hf hp hw hd => ?_⟩
  · rw [step_generator hts, generatorTurn_take (s := { s with turns := ts }) hf hp hw,
      takeWord_of_decode hd]
    rfl
  · rw [step_entropy hts, entropyTurn_take (s := { s with turns := ts }) hf hp hw,
      takeWord_of_decode hd]
    rfl

/-! ## A turn of the host: an action that completes, holds or is refused (R74) -/

section
variable {s t : State} {k : Nat} {ts : List Turn} {a : HostAction} {v : Option Word}
  (hts : s.turns = .host k :: ts) (hq : s.hostQueue[k]? = some a)
include hts hq

theorem step_host_done (ha : hostAct a { s with turns := ts } = .done t v) :
    step s = .next { t with
      hostQueue := s.hostQueue.eraseIdx k, hostReads := s.hostReads ++ v.toList } := by
  simp [step_host hts, hostTurn, hq, ha]

theorem step_host_hold (ha : hostAct a { s with turns := ts } = .hold) :
    step s = .next { s with turns := ts } := by
  simp [step_host hts, hostTurn, hq, ha]

theorem step_host_refused {r : Refusal} (ha : hostAct a { s with turns := ts } = .refused r) :
    step s = .refused r := by
  simp [step_host hts, hostTurn, hq, ha]

end

/-! ## An aligned 32-bit access reaches the register at its offset (R54, R64) -/

/-- The read or the write of a register. -/
def HostReg.access (r : HostReg) (op : HostOp) (s : State) : HostOutcome :=
  match op with
  | .read => hostRead r s
  | .write w => hostWrite r w s

/-- What `hostAccess` does with an aligned 32-bit access of the window. -/
theorem hostAccess_at (s : State) {off : Nat} (op : HostOp) (hal : off % 4 = 0) :
    hostAccess { addr := s.params.hostBase + off, width := 32, op := op } s =
      (hostReg s.params off).access op s := by
  unfold hostAccess
  rw [if_neg (by simp), if_neg (by simp [hal])]
  cases op <;> simp [HostReg.access]

section
variable {s t : State} {k off : Nat} {ts : List Turn} {op : HostOp} {v : Option Word}
  (h : presents s k ts off op) (hal : off % 4 = 0)
include h hal

/-- An access that completes. -/
theorem step_presents_done
    (ha : (hostReg s.params off).access op { s with turns := ts } = .done t v) :
    step s = .next { t with
      hostQueue := s.hostQueue.eraseIdx k, hostReads := s.hostReads ++ v.toList } :=
  have ⟨hts, hq⟩ := h
  step_host_done hts hq ((hostAccess_at { s with turns := ts } op hal).trans ha)

/-- An access that holds. -/
theorem step_presents_hold
    (ha : (hostReg s.params off).access op { s with turns := ts } = .hold) :
    step s = .next { s with turns := ts } :=
  have ⟨hts, hq⟩ := h
  step_host_hold hts hq ((hostAccess_at { s with turns := ts } op hal).trans ha)

end

/-- From offset 0x018 on there are only the KEY window and reserved offsets. -/
theorem hostReg_of_le {p : Params} {off : Nat} (h : 0x018 ≤ off) :
    hostReg p off =
      if 0x100 ≤ off ∧ off < 0x100 + p.keyBufBytes then .key ((off - 0x100) / 4)
      else .reserved := by
  have hne : ∀ o < 0x018, off ≠ o := fun o ho => by omega
  unfold hostReg
  rw [if_neg (hne statusOffset (by decide)), if_neg (hne faultCmdOffset (by decide)),
    if_neg (hne cmdOffset (by decide)), if_neg (hne entOffset (by decide)),
    if_neg (hne outDataOffset (by decide)), if_neg (hne outCountOffset (by decide))]
  rfl

theorem hostReg_key {p : Params} {off : Nat} (hlo : 0x100 ≤ off)
    (hhi : off < 0x100 + p.keyBufBytes) : hostReg p off = .key ((off - 0x100) / 4) := by
  rw [hostReg_of_le (by omega), if_pos ⟨hlo, hhi⟩]

theorem hostReg_reserved {p : Params} {off : Nat}
    (h : (0x018 ≤ off ∧ off < 0x100) ∨ 0x100 + p.keyBufBytes ≤ off) :
    hostReg p off = .reserved := by
  rw [hostReg_of_le (by omega), if_neg (by omega)]

/-! ## The KEY window (R61) -/

/-- The bytes that a word write stores, the lowest byte first. -/
theorem Memory.read_writeWord_same (k : Memory) (m : Nat) (w : Word) {b : Nat} (hb : b < 4) :
    (k.writeWord m w).read (4 * m + b) = some (w.extractLsb' (8 * b) 8) := by
  unfold Memory.writeWord
  simp only [Memory.read_write, Nat.add_left_cancel_iff]
  interval_cases b <;> rfl

theorem Memory.read_writeWord_other (k : Memory) {m x : Nat} (w : Word)
    (h : x < 4 * m ∨ 4 * m + 3 < x) : (k.writeWord m w).read x = k.read x := by
  unfold Memory.writeWord
  iterate 4 rw [Memory.read_write_other _ _ (by omega)]

/-- Settles O44: the offset reaches the m-th word of the window, whose write is `Memory.writeWord`. -/
theorem keyWindowWriteStoresFourBytes : Obligations.KeyWindowWriteStoresFourBytes := by
  intro s k ts m w hm h
  have hreg : hostReg s.params (0x100 + 4 * m) = .key m := by
    rw [hostReg_key (by omega) (by omega)]
    congr 1
    omega
  refine ⟨s.key.writeWord m w, step_presents_done h (by omega) (by rw [hreg]; rfl), fun b hb => ?_,
    fun x hx => Memory.read_writeWord_other s.key w hx⟩
  rw [Memory.read_writeWord_same s.key m w hb, ← Nat.shiftRight_eq_div_pow]
  rfl

/-! ## Reads of STATUS and waits (10_state.md R26, R55; 70_reset_and_hazards.md R233) -/

section
variable (s : State)

theorem entBusy_iff : entBusy s = true ↔ s.entReg ≠ none ∨ s.entPhase ≠ .idle := by
  simp [entBusy, Option.isSome_iff_ne_none]

theorem genBusy_iff : genBusy s = true ↔ s.cmdFifo ≠ [] ∨ s.genPhase ≠ .idle := by
  simp [genBusy, ← GenPhase.isIdle_iff]

/-- STATUS as the bits [3:0] of R26 behind the fields above them. -/
theorem statusWord_eq_concat : statusWord s =
    ((((((0 : BitVec 23) ++ portBit s.faultPort ++ s.cause).concat (genBusy s)).concat
      (entBusy s)).concat s.fault).concat s.ready) := rfl

theorem getLsbD_statusWord_zero : (statusWord s).getLsbD 0 = s.ready := by
  rw [statusWord_eq_concat, BitVec.getLsbD_concat_zero]

theorem getLsbD_statusWord_one : (statusWord s).getLsbD 1 = s.fault := by
  rw [statusWord_eq_concat, BitVec.getLsbD_concat_succ, BitVec.getLsbD_concat_zero]

theorem getLsbD_statusWord_two : (statusWord s).getLsbD 2 = entBusy s := by
  rw [statusWord_eq_concat, BitVec.getLsbD_concat_succ, BitVec.getLsbD_concat_succ,
    BitVec.getLsbD_concat_zero]

theorem getLsbD_statusWord_three : (statusWord s).getLsbD 3 = genBusy s := by
  rw [statusWord_eq_concat, BitVec.getLsbD_concat_succ, BitVec.getLsbD_concat_succ,
    BitVec.getLsbD_concat_succ, BitVec.getLsbD_concat_zero]

/-- The fields above the first four bits. -/
theorem getLsbD_statusWord_add_four (b : Nat) : (statusWord s).getLsbD (b + 4) =
    if b < 4 then s.cause.getLsbD b else decide (b = 4) && decide (s.faultPort = .ent) := by
  rw [statusWord_eq_concat]
  simp only [BitVec.getLsbD_concat_succ, BitVec.getLsbD_append]
  by_cases hb : b < 4
  · simp [hb]
  · have h4 : b - 4 = 0 ↔ b = 4 := by omega
    cases s.faultPort <;> simp [hb, portBit, h4]

end

/-- Settles O39: what each bit of STATUS holds, and a wait tests one of them. -/
theorem statusReadsReturnTheFields : Obligations.StatusReadsReturnTheFields := by
  refine ⟨fun s k ts h => ⟨statusWord s, step_presents_done h rfl rfl, ?_⟩,
    fun s k ts h => step_presents_done h rfl rfl, fun s k ts b hts hq => ?_⟩
  · refine ⟨getLsbD_statusWord_zero s, getLsbD_statusWord_one s, ?_, ?_, fun b hb => ?_, ?_,
      fun b hb => ?_⟩
    · rw [getLsbD_statusWord_two, entBusy_iff]
    · rw [getLsbD_statusWord_three, genBusy_iff]
    · rw [Nat.add_comm, getLsbD_statusWord_add_four, if_pos hb]
    · change (statusWord s).getLsbD (4 + 4) = true ↔ _
      rw [getLsbD_statusWord_add_four]
      simp
    · obtain ⟨c, rfl⟩ := Nat.exists_eq_add_of_le hb
      rw [show 9 + c = c + 5 + 4 by omega, getLsbD_statusWord_add_four]
      simp
  · intro bit
    have hbit : busyBit b { s with turns := ts } = (statusWord s).getLsbD bit := by
      cases b
      · exact (getLsbD_statusWord_three s).symm
      · exact (getLsbD_statusWord_two s).symm
    refine ⟨fun hb => step_host_hold hts hq (if_pos (hbit.trans hb)), fun hb => ?_⟩
    exact step_host_done hts hq (if_neg (by simp [hbit, hb]))

/-! ## The other registers (R57 to R64) -/

section
variable {s : State}

theorem readOutData_cons {b : Byte} {rest : List Byte} (h : s.outFifo = b :: rest) :
    readOutData s = .done { s with outFifo := rest } (some (b.setWidth 32)) := by
  simp [readOutData, h]

theorem readOutData_nil (h : s.outFifo = []) : readOutData s = .hold := by
  simp [readOutData, h]

end

/-- Settles O40: by the three branches of a write to CMD. -/
theorem cmdWriteAppendsOrHolds : Obligations.CmdWriteAppendsOrHolds := by
  intro s k ts w h
  refine ⟨fun hf => step_presents_done h rfl (if_pos hf), fun hf hfull => ?_, fun hf hroom => ?_⟩
  · exact step_presents_hold h rfl ((if_neg (by simp [hf])).trans (if_pos hfull.ge))
  · exact step_presents_done h rfl
      ((if_neg (by simp [hf])).trans (if_neg (Nat.not_le_of_lt hroom)))

/-- Settles O41: by the three branches of a write to ENT. -/
theorem entWriteFillsOrHolds : Obligations.EntWriteFillsOrHolds := by
  intro s k ts w h
  refine ⟨fun hf => step_presents_done h rfl (if_pos hf), fun hf hfull => ?_, fun hf hnone => ?_⟩
  · exact step_presents_hold h rfl
      ((if_neg (by simp [hf])).trans (if_pos (Option.isSome_iff_ne_none.2 hfull)))
  · exact step_presents_done h rfl ((if_neg (by simp [hf])).trans (if_neg (by simp [hnone])))

/-- Settles O42: by whether the output FIFO has a head. -/
theorem outDataReadPopsOrHolds : Obligations.OutDataReadPopsOrHolds := by
  intro s k ts h
  refine ⟨fun b rest hout => ⟨b.setWidth 32, ?_, ?_⟩, fun hout => ?_⟩
  · exact BitVec.toNat_setWidth_of_le (by decide)
  · exact step_presents_done h rfl (readOutData_cons (s := { s with turns := ts }) hout)
  · exact step_presents_hold h rfl (readOutData_nil (s := { s with turns := ts }) hout)

/-- Settles O43: the saturated count fits in 32 bits. -/
theorem outCountReadReturnsOccupancy : Obligations.OutCountReadReturnsOccupancy := by
  intro s k ts h
  exact ⟨outCount s, Nat.mod_eq_of_lt (by omega), step_presents_done h rfl rfl⟩

/-- Settles O45: each offset of the two lists reaches a register that answers so. -/
theorem wrongWayAccessesDoNothing : Obligations.WrongWayAccessesDoNothing := by
  refine fun s k ts off => ⟨fun h hal hoff => ?_, fun w h hoff => ?_⟩
  · rcases hoff with rfl | rfl | ⟨hlo, hhi⟩
    · exact step_presents_done h rfl rfl
    · exact step_presents_done h rfl rfl
    · exact step_presents_done h hal (by rw [hostReg_key hlo hhi]; rfl)
  · rcases hoff with rfl | rfl | rfl | rfl <;> exact step_presents_done h rfl rfl

/-- Settles O46: no register stands at such an offset. -/
theorem reservedOffsetsReadZero : Obligations.ReservedOffsetsReadZero := by
  intro s k ts off hal hoff
  exact ⟨fun h => step_presents_done h hal (by rw [hostReg_reserved hoff]; rfl),
    fun w h => step_presents_done h hal (by rw [hostReg_reserved hoff]; rfl)⟩

/-- Settles O47: the second check of an access. -/
theorem misshapenAccessIsRefused : Obligations.MisshapenAccessIsRefused :=
  fun _ _ _ _ hts hq hbase hshape =>
    step_host_refused hts hq ((if_neg hbase.not_gt).trans (if_pos hshape))

/-- Settles O48: the first check of an access. -/
theorem accessBelowWindowIsRefused : Obligations.AccessBelowWindowIsRefused :=
  fun _ _ _ _ hts hq hbase => step_host_refused hts hq (if_pos hbase)

end Sys2Proof.Machine

namespace Sys2Proof

open Spec

/-! ## The fields of a command word (30_encoding.md R90 to R94) -/

section
variable (w : Word)

theorem opField_append_argField : opField w ++ argField w = w :=
  BitVec.extractLsb'_append_extractLsb' (w := 4) (len := 28)

theorem resField_append_entropyField : resField w ++ entropyField w = argField w :=
  BitVec.extractLsb'_append_extractLsb'_eq_extractLsb' rfl

theorem opField_toNat : (opField w).toNat = wordOp w := by
  have hlt : w.toNat / 2 ^ 28 < 2 ^ 4 := by omega
  rw [opField, BitVec.extractLsb'_toNat, Nat.shiftRight_eq_div_pow, Nat.mod_eq_of_lt hlt, wordOp]

theorem argField_eq_ofNat : argField w = BitVec.ofNat 28 (wordArg w) :=
  BitVec.eq_of_toNat_eq (by simp [argField, wordArg])

theorem resField_toNat : (resField w).toNat = wordRes w := by
  rw [resField, BitVec.extractLsb'_toNat, Nat.shiftRight_eq_div_pow, wordRes]

theorem resField_ne_zero_iff : resField w ≠ 0 ↔ wordRes w ≠ 0 := by
  rw [← resField_toNat]
  exact BitVec.toNat_ne_iff_ne.symm

theorem entropyField_eq_ofNat : entropyField w = BitVec.ofNat 16 (wordEntropy w) :=
  BitVec.eq_of_toNat_eq (by simp [entropyField, wordEntropy])

end

/-! The fields of the word of a command. -/

@[simp] theorem opField_encode (i : Instr) : opField (encode i) = opcode i :=
  BitVec.extractLsb'_append_eq_left

@[simp] theorem argField_encode (i : Instr) : argField (encode i) = argument i :=
  BitVec.extractLsb'_append_eq_right

@[simp] theorem resField_encode_addEntropy (e : Half) : resField (encode (.addEntropy e)) = 0 :=
  (BitVec.extractLsb'_append_eq_of_add_le (by decide)).trans BitVec.extractLsb'_append_eq_left

@[simp] theorem entropyField_encode_addEntropy (e : Half) :
    entropyField (encode (.addEntropy e)) = e :=
  (BitVec.extractLsb'_append_eq_of_add_le (by decide)).trans BitVec.extractLsb'_append_eq_right

/-- R90: a word that has both fields of a command is its encoding. -/
theorem encode_eq_of_fields {w : Word} {i : Instr} (hop : (opField w).toNat = (opcode i).toNat)
    (harg : argField w = argument i) : encode i = w := by
  rw [encode, ← BitVec.eq_of_toNat_eq hop, ← harg, opField_append_argField]

/-! ## Decoding inverts encoding (R99) -/

theorem decode_encode (i : Instr) : decode (encode i) = .instr i := by
  cases i with
  | init L => simp [decode, opcode, argument]
  | reset L => simp [decode, opcode, argument]
  | generate n => simp [decode, opcode, argument]
  | addEntropy e => simp [decode, opcode]

theorem encode_of_decode {w : Word} {i : Instr} (h : decode w = .instr i) : encode i = w := by
  unfold decode at h
  split at h
  · next hop => cases h; exact encode_eq_of_fields hop rfl
  · next hop => cases h; exact encode_eq_of_fields hop rfl
  · next hop => cases h; exact encode_eq_of_fields hop rfl
  · next hop =>
    split at h
    · cases h
    · next hres =>
      cases h
      have harg : argField w = argument (.addEntropy (entropyField w)) := by
        rw [← resField_append_entropyField, not_not.1 hres, argument]
      exact encode_eq_of_fields hop harg
  · cases h

/-- Settles O1: the fields of a word determine it, and encoding writes them as decoding reads them. -/
theorem decodeAndEncodeAgree : Obligations.DecodeAndEncodeAgree :=
  fun _ _ => ⟨encode_of_decode, fun h => h ▸ decode_encode _⟩

/-- Settles O2: by the operation code, with each field as arithmetic on the word. -/
theorem fieldExtractionIsTotal : Obligations.FieldExtractionIsTotal := by
  intro w
  simp only [decode, opField_toNat, argField_eq_ofNat, resField_ne_zero_iff, entropyField_eq_ofNat]
  split
  · next hop => simp [hop]
  · next hop => simp [hop]
  · next hop => simp [hop]
  · next hop => simp [hop]
  · next h1 h2 h3 h4 => rw [if_neg h1, if_neg h2, if_neg h3, if_neg h4]

/-! ## The assembler (R100) -/

/-- An operand below 2^28 stays clear of the operation code. -/
theorem opcode_shift_or_operand_toNat {op n : Nat} (hop : op < 2 ^ 4) (hn : n < 2 ^ 28) :
    ((BitVec.ofNat 32 op <<< 28) ||| BitVec.ofNat 32 n).toNat = op * 2 ^ 28 + n := by
  have hn32 : n % 2 ^ 32 = n := Nat.mod_eq_of_lt (by omega)
  have hop32 : op % 2 ^ 32 = op := Nat.mod_eq_of_lt (by omega)
  have hshift : op * 2 ^ 28 % 2 ^ 32 = op * 2 ^ 28 := Nat.mod_eq_of_lt (by omega)
  rw [BitVec.toNat_or, BitVec.toNat_shiftLeft, BitVec.toNat_ofNat, BitVec.toNat_ofNat, hn32, hop32,
    Nat.shiftLeft_eq, hshift, Nat.mul_comm, ← Nat.two_pow_add_eq_or_of_lt hn]

theorem Mnemonic.opcode_lt (m : Mnemonic) : m.opcode < 2 ^ 4 := by
  cases m <;> decide

theorem Mnemonic.operandWidth_le (m : Mnemonic) : m.operandWidth ≤ 28 := by
  cases m <;> decide

theorem assemble_of_operand_fits {c : AsmCommand} (h : c.operand < 2 ^ c.mnemonic.operandWidth) :
    ∃ w : Word, assemble c = some (c.port, w) ∧
      w.toNat = c.mnemonic.opcode * 2 ^ 28 + c.operand := by
  have hn : c.operand < 2 ^ 28 :=
    h.trans_le (Nat.pow_le_pow_right (by decide) (Mnemonic.operandWidth_le _))
  exact ⟨_, if_pos (decide_eq_true h), opcode_shift_or_operand_toNat (Mnemonic.opcode_lt _) hn⟩

theorem assemble_of_operand_too_large {c : AsmCommand}
    (h : 2 ^ c.mnemonic.operandWidth ≤ c.operand) : assemble c = none :=
  if_neg (by simpa [AsmCommand.wellFormed] using h)

/-- Settles O4: by the mnemonic, whose operation code and bound are the model's. -/
theorem assembledWordIsOpcodeAndOperand : Obligations.AssembledWordIsOpcodeAndOperand := by
  intro c
  have hlarge := assemble_of_operand_too_large (c := c)
  have hfits := assemble_of_operand_fits (c := c)
  obtain ⟨p, m, n⟩ := c
  cases m <;> exact ⟨hlarge, hfits⟩

/-- Settles O3: each row of R102 is evaluated. -/
theorem workedEncodings : Obligations.WorkedEncodings := by
  unfold Obligations.WorkedEncodings
  decide

/-! ## Illegal words (R96) -/

theorem decode_of_illegal_op {w : Word} (h : wordOp w = 0 ∨ 5 ≤ wordOp w) :
    decode w = .illegal := by
  rw [fieldExtractionIsTotal w, if_neg (by omega), if_neg (by omega), if_neg (by omega),
    if_neg (by omega)]

end Sys2Proof

namespace Sys2Proof.Machine

theorem takeWord_of_illegal {p : Port} {w : Word} {s : State} (hd : decode w = .illegal) :
    takeWord p w s = .next (raiseFault .illegalOpcode p w (onPort p s)) := by
  rw [takeWord, hd]

/-- Settles O8: no command has such an operation code, and the fault writes its four fields. -/
theorem illegalWordFaultsOnEitherPort : Obligations.IllegalWordFaultsOnEitherPort :=
  fun _ _ _ h => takeWord_of_illegal (decode_of_illegal_op h)

end Sys2Proof.Machine

namespace Sys2Proof.Machine

open Sys2Proof.Spec

/-! ## KSA_FILL (40_ksa_init.md R112) -/

theorem read_ksaFill_toNat (x : Byte) :
    (Table.read ksaFill x).toNat = 233 * (x.toNat + 1) % 256 := by
  have hmul := BitVec.toNat_mul fillStride (x + 1)
  rw [BitVec.toNat_add, Nat.mul_mod_mod] at hmul
  rw [read_ksaFill]
  exact hmul

/-- Settles O16: the closed form of KSA_FILL, of which the listed elements are values. -/
theorem fillTableIsStride233 : Obligations.FillTableIsStride233 := by
  refine ⟨read_ksaFill_toNat, ?_⟩
  simp only [read_ksaFill]
  decide

/-! ## The PRGA step over function tables (00_scope.md R12, 41_prga_generate.md R141, R142) -/

theorem Table.read_swap_eq_swapAt (t : Table) (x y : Byte) :
    Table.read (Table.swap t x y) = swapAt (Table.read t) x y := by
  funext z
  rw [Table.read_swap, swapAt]
  by_cases hy : z = y
  · subst hy
    by_cases hx : z = x <;> simp [hx]
  · simp [hy]

theorem prgaCursorJ_eq_prgaValue (seen : Word) (a : Byte) : prgaCursorJ seen a = prgaValue a seen :=
  congrArg (· + a.setWidth 32) (rotl_word seen)

theorem lowByte_eq_setWidth (v : Word) : lowByte v = v.setWidth 8 :=
  (BitVec.setWidth_eq_extractLsb' (by decide)).symm

/-- R146: `cursor_i` advances by 11 at every PRGA step. -/
theorem Generator.discardSteps_cursorI (g : Generator) (n : Nat) :
    (g.discardSteps n).cursorI = g.cursorI + BitVec.ofNat 8 (11 * n) := by
  induction n with
  | zero => simp [Generator.discardSteps]
  | succ n ih =>
    have hmul : BitVec.ofNat 8 (11 * (n + 1)) = BitVec.ofNat 8 (11 * n) + prgaStride :=
      BitVec.ofNat_add _ _
    rw [Generator.discardSteps_succ, hmul, ← add_assoc, ← ih]
    rfl

theorem Generator.discardSteps_eq_streamed (g : Generator) (n : Nat) :
    (Table.read (g.discardSteps n).table, (g.discardSteps n).cursorJ) =
      streamed (Table.read g.table) g.cursorI g.cursorJ n := by
  induction n with
  | zero => rfl
  | succ n ih =>
    have hci : (g.discardSteps n).cursorI + prgaStride = cursorAt g.cursorI n :=
      (congrArg Generator.cursorI (g.discardSteps_succ n)).symm.trans
        (g.discardSteps_cursorI (n + 1))
    simp only [Generator.discardSteps_succ, Generator.discardStep, Generator.tableByte,
      Generator.store_table, Generator.store_cursorJ, Generator.advance_table,
      Generator.advance_cursorI, Table.read_swap_eq_swapAt, prgaCursorJ_eq_prgaValue,
      lowByte_eq_setWidth, hci, streamed, ← ih]

/-- R117: 256 PRGA steps take `cursor_i` round to where it was, as 256 * 11 is 0 modulo 256. -/
theorem Generator.discard_cursorI (g : Generator) : g.discard.cursorI = g.cursorI :=
  (g.discardSteps_cursorI discardLen).trans (BitVec.add_zero _)

theorem Generator.discard_isPermutation {g : Generator} (h : Table.isPermutation g.table) :
    Table.isPermutation g.discard.table :=
  Generator.discardSteps_keeps (P := fun g => Table.isPermutation g.table)
    (fun _ hp => Generator.store_isPermutation _ _ hp) discardLen g h

/-- Settles O19: DISCARD is the stream of 256 PRGA steps, each of which is a swap of the table. -/
theorem discardKeepsCursorI : Obligations.DiscardKeepsCursorI := by
  intro g
  have hstream : (Table.read g.discard.table, g.discard.cursorJ) = streamed _ _ _ 256 :=
    g.discardSteps_eq_streamed discardLen
  rw [← hstream]
  exact ⟨g.discard_cursorI, fun _ => rfl, rfl, Generator.discard_isPermutation⟩

/-! ## KSA_MIX and KSA_FINISH over function tables (40_ksa_init.md R113 to R117) -/

/-- A working state of KSA_MIX is the one that `mixed` gives after `r` rounds. -/
def MixState.afterRounds (key : Nat → Byte) (len r : Nat) (m : MixState) : Prop :=
  Table.read m.table = (mixed key len r).1 ∧ m.i = BitVec.ofNat 8 r ∧ m.j = (mixed key len r).2

section
variable {K : Memory} {key : Nat → Byte} {len : Nat}

/-- KSA_MIX starts from the KSA_FILL table with both indices 0. -/
theorem MixState.afterRounds_zero :
    MixState.afterRounds key len 0 { table := ksaFill, i := 0, j := 0 } :=
  ⟨funext read_ksaFill, rfl, rfl⟩

theorem MixState.afterRounds_round {r : Nat} {m : MixState} (h : m.afterRounds key len r) :
    (m.round (key (r % len))).afterRounds key len (r + 1) := by
  obtain ⟨htable, hi, hj⟩ := h
  refine ⟨?_, ?_, ?_⟩
  · simp only [MixState.round, Table.read_swap_eq_swapAt, htable, hi, hj, mixed]
  · exact (congrArg (· + 1) hi).trans (BitVec.ofNat_add r 1).symm
  · simp only [MixState.round, htable, hi, hj, mixed]

theorem mixRounds_afterRounds (hkey : ∀ r, keyByte K len r = some (key (r % len))) {n r : Nat}
    {m : MixState} (h : m.afterRounds key len r) :
    ∃ m', mixRounds K len n r m = some m' ∧ m'.afterRounds key len (r + n) := by
  induction n generalizing r m with
  | zero => exact ⟨m, rfl, h⟩
  | succ n ih =>
    simp only [mixRounds, hkey]
    obtain ⟨m', hm', hafter⟩ := ih (MixState.afterRounds_round h)
    exact ⟨m', hm', by rwa [Nat.add_right_comm] at hafter⟩

theorem ksaRounds_eq_max (len : Nat) : ksaRounds len = max len 256 := by
  unfold ksaRounds ksaMinRounds
  split <;> omega

/-- KSA_FINISH and DISCARD after the rounds of KSA_MIX. -/
theorem builtFrom_discard_ksaFinish {m : MixState} (h : m.afterRounds key len (max len 256)) :
    builtFrom key len (ksaFinish m).discard := by
  obtain ⟨htable, -, hj⟩ := h
  have hci : (ksaFinish m).cursorI = keyedCursor key len := by
    simp only [ksaFinish, ksaXor, htable, hj, keyedCursor]
  have hstream : streamed (Table.read (ksaFinish m).table) (ksaFinish m).cursorI
      (ksaFinish m).cursorJ 256 = keyedTable key len := by
    rw [hci, keyedTable, ← htable]
    rfl
  obtain ⟨hcursor, hread, hcj, -⟩ := discardKeepsCursorI (ksaFinish m)
  rw [hstream] at hread hcj
  exact ⟨hread, hcursor.trans hci, hcj⟩

theorem keyedGenerator_builtFrom (hlen : 1 ≤ len) (hkey : ∀ x, x < len → K.read x = some (key x)) :
    ∃ g, keyedGenerator K len = some g ∧ builtFrom key len g := by
  obtain ⟨m, hm, hafter⟩ := mixRounds_afterRounds (n := ksaRounds len)
    (fun r => hkey _ (Nat.mod_lt r hlen)) MixState.afterRounds_zero
  rw [Nat.zero_add, ksaRounds_eq_max] at hafter
  exact ⟨_, congrArg (Option.map _) hm, builtFrom_discard_ksaFinish hafter⟩

/-- R121: KSA_MIX reads no key byte but K[0] to K[len - 1]. -/
theorem keyedGenerator_congr {K' : Memory} (hlen : 1 ≤ len)
    (h : ∀ x, x < len → K.read x = K'.read x) :
    keyedGenerator K len = keyedGenerator K' len :=
  congrArg (Option.map _) (mixRounds_congr _ fun r _ _ => h _ (Nat.mod_lt r hlen))

end

/-! ## INIT and RESET (40_ksa_init.md R110, R119, R122 to R124) -/

/-- Settles O12: each round of KSA_MIX and each PRGA step of DISCARD is the spec's over functions. -/
theorem initBuildsGeneratorFromKey : Obligations.InitBuildsGeneratorFromKey := by
  intro s L key hlegal hkey
  have ⟨_, hlen, _⟩ := hlegal
  obtain ⟨g, hg, hbuilt⟩ := keyedGenerator_builtFrom hlen hkey
  refine ⟨g, ?_, hbuilt⟩
  rw [exec_keyCommand hlegal (.inl rfl), rekey, keyLength, hg]

/-- An INIT or RESET that no check stops and that answers a next state has built its generator state
from the key. -/
theorem keyedGenerator_of_exec {s t : State} {L : BitVec 28} {i : Instr}
    (hlegal : keyCommandLegal s L) (hi : i = .init L ∨ (i = .reset L ∧ s.ready = true))
    (h : exec i s = .next t) : keyedGenerator s.key L.toNat = some t.gen := by
  rw [exec_keyCommand hlegal hi] at h
  rcases rekey_cases h with ⟨g, hg, ho⟩ | ⟨-, ho⟩ <;> cases ho
  exact hg

/-- Settles O17: the read set of KSA_MIX is K[0] to K[L - 1]. -/
theorem initDependsOnlyOnItsKey : Obligations.InitDependsOnlyOnItsKey := by
  intro s s' t t' L hlegal hlegal' hkey h h'
  have ⟨_, hlen, _⟩ := hlegal
  have hgen := keyedGenerator_of_exec hlegal (.inl rfl) h
  have hgen' := keyedGenerator_of_exec hlegal' (.inl rfl) h'
  rw [keyedGenerator_congr hlen hkey] at hgen
  exact Option.some.inj (hgen.symm.trans hgen')

/-- Settles O18: FILL_STRIDE is odd, and every later step of the KSA and of DISCARD is a swap. -/
theorem rekeyedTableIsPermutation : Obligations.RekeyedTableIsPermutation :=
  ⟨ksaFill_isPermutation, fun _ _ _ _ hlegal hi h =>
    keyedGenerator_isPermutation (keyedGenerator_of_exec hlegal hi h)⟩

/-- Settles O20: no command writes outside `execWritten`. -/
theorem initKeepsPortsAndKey : Obligations.InitKeepsPortsAndKey := by
  intro s t L h
  rw [exec_frame h]
  exact ⟨rfl, rfl, rfl, rfl⟩

end Sys2Proof.Machine

namespace Sys2Proof.Machine

open Sys2Proof.Spec

/-! ## Swaps of function tables (00_scope.md R12) -/

section
variable (t : Byte → Byte) (x y : Byte)

theorem swapAt_left : swapAt t x y x = t y := if_pos rfl

theorem swapAt_right : swapAt t x y y = t x := by
  by_cases h : y = x
  · rw [h, swapAt_left]
  · exact (if_neg h).trans (if_pos rfl)

theorem swapAt_of_ne {z : Byte} (hx : z ≠ x) (hy : z ≠ y) : swapAt t x y z = t z :=
  (if_neg hx).trans (if_neg hy)

end

/-! ## The table and the output byte of a PRGA step (41_prga_generate.md R142 to R144) -/

section
variable (g : Generator) (a : Byte) (seen : Word)

theorem Generator.read_store_table : Table.read (g.store a seen).table =
    swapAt (Table.read g.table) g.cursorI ((prgaValue a seen).setWidth 8) := by
  rw [Generator.store_table, Table.read_swap_eq_swapAt, lowByte_eq_setWidth,
    prgaCursorJ_eq_prgaValue]

/-- The index is computed from `b`, the element at `j0` before the swap, and read after it. -/
theorem Generator.outputByte_eq_swapAt : g.outputByte a seen =
    swapAt (Table.read g.table) g.cursorI ((prgaValue a seen).setWidth 8)
      (a + Table.read g.table ((prgaValue a seen).setWidth 8)) := by
  rw [Generator.outputByte, Generator.read_store_table, lowByte_eq_setWidth,
    prgaCursorJ_eq_prgaValue]

end

/-- Settles O25: what a swap leaves at its two slots and at any other index. -/
theorem prgaOutputCases : Obligations.PrgaOutputCases := by
  intro g seen a j0 b g'
  have htable : Table.read g'.table = swapAt (Table.read g.table) g.cursorI j0 :=
    g.read_store_table a seen
  have hbyte : g.outputByte a seen = swapAt (Table.read g.table) g.cursorI j0 (a + b) :=
    g.outputByte_eq_swapAt a seen
  rw [htable, hbyte]
  refine ⟨swapAt_left .., swapAt_right .., fun _ => ⟨fun hu => ?_, fun hu => ?_, ?_⟩⟩
  · rw [hu, swapAt_left]
  · rw [hu, swapAt_right]
  · exact swapAt_of_ne _ _ _

/-- Settles O26: a swap of an index with itself, and a byte added to itself. -/
theorem aliasedPrgaStep : Obligations.AliasedPrgaStep := by
  intro g seen a j0 halias
  have hb : Table.read g.table j0 = a := congrArg (Table.read g.table) halias
  have htable : (g.store a seen).table = g.table := by
    have hj0 : lowByte (prgaCursorJ seen a) = g.cursorI :=
      (lowByte_eq_setWidth _).trans halias
    rw [Generator.store_table, hj0, Table.swap_self]
  have hdouble : a + a = BitVec.ofNat 8 (2 * a.toNat % 256) :=
    BitVec.eq_of_toNat_eq (by rw [BitVec.toNat_add, BitVec.toNat_ofNat]; omega)
  refine ⟨hb, htable, ?_⟩
  rw [Generator.outputByte, htable, ← hdouble, lowByte_eq_setWidth]
  exact congrArg (fun b => Table.read g.table (a + b)) hb

/-! ## The steps of GENERATE (R140 to R142, R145) -/

/-- The phase of a GENERATE that has `n` bytes still to generate, between PRGA steps. -/
def GenPhase.counting (n : BitVec 28) : GenPhase := if n = 0 then .idle else .gen n

theorem phaseAfterByte_eq_counting (rem : BitVec 28) :
    phaseAfterByte rem = GenPhase.counting (rem - 1) := by
  unfold phaseAfterByte GenPhase.counting
  simp only [sub_eq_zero]

section
variable {s : State} {n rem : BitVec 28} {a : Byte} {seen : Word} {ts : List Turn}

theorem exec_generate (hp : s.port = .cmd) (hr : s.ready = true) :
    exec (.generate n) s = startGenerate n s := by
  change checked _ _ s _ = _
  rw [(generateChecks_eq_none s).2 ⟨hp, hr⟩, checked_none]

theorem step_prgaLoad (hts : s.turns = .generator :: ts) (hf : s.fault = false)
    (hp : s.genPhase = .gen rem) : step s = .next (prgaLoad rem { s with turns := ts }) :=
  (step_generator hts).trans (generatorTurn_gen hf hp)

theorem step_prgaStore (hts : s.turns = .generator :: ts) (hf : s.fault = false)
    (hp : s.genPhase = .prgaLoaded rem a seen)
    (hroom : FifoDepth.hasRoom s.params.outFifoDepth s.outFifo.length = true) :
    step s = .next (prgaStore rem a seen { s with turns := ts }) :=
  (step_generator hts).trans (generatorTurn_prgaLoaded hf hp hroom)

/-- R149: the store step is enabled exactly where the output FIFO has room. -/
theorem generatorEnabled_prgaLoaded (hf : s.fault = false)
    (hp : s.genPhase = .prgaLoaded rem a seen) :
    generatorEnabled s = FifoDepth.hasRoom s.params.outFifoDepth s.outFifo.length := by
  simp [generatorEnabled, hf, hp]

end

/-- Settles O22: no check applies, and the effect depends on whether n is 0. -/
theorem generateStartsCounting : Obligations.GenerateStartsCounting := by
  intro s n hp hr
  rw [exec_generate hp hr]
  rcases startGenerate_cases (rfl : startGenerate n s = _) with ⟨hn, ho⟩ | ⟨hn, ho⟩
  · exact ⟨fun _ => ho, fun h => absurd hn h⟩
  · exact ⟨fun h => absurd h hn, fun _ => ho⟩

/-- Settles O23: the load step of the generator agent. -/
theorem prgaLoadStep : Obligations.PrgaLoadStep :=
  fun _ _ _ hts hf hp => step_prgaLoad hts hf hp

/-- Settles O24: the store step of the generator agent, its table and byte over function tables. -/
theorem prgaStoreStep : Obligations.PrgaStoreStep := by
  intro s rem a seen ts hts hf hp hroom v j0 b u
  have hbyte : s.gen.outputByte a seen = u (a + b) := s.gen.outputByte_eq_swapAt a seen
  refine ⟨(s.gen.store a seen).table, congrFun (s.gen.read_store_table a seen), ?_⟩
  rw [step_prgaStore hts hf hp (hroom 0 Nat.one_pos), ← hbyte]
  rfl

/-- Settles O27: a full output FIFO disables the store, a pop makes room, and an unbounded FIFO always
has room. -/
theorem fullOutputFifoHoldsTheStore : Obligations.FullOutputFifoHoldsTheStore := by
  intro s rem a seen hf hp
  refine ⟨fun n hd hfull => ⟨fun ts hts => ?_, fun k ts hread hn => ?_⟩, fun hd => ?_⟩
  · have hoff : generatorEnabled s = false := by
      simp [generatorEnabled_prgaLoaded hf hp, hd, hfull, FifoDepth.hasRoom]
    rw [step_generator hts]
    exact generatorTurn_of_not_enabled (s := { s with turns := ts }) hoff
  · obtain ⟨b, rest, hout⟩ := List.exists_cons_of_length_pos (hfull ▸ hn)
    obtain ⟨v, -, hstep⟩ := (outDataReadPopsOrHolds s k ts hread).1 b rest hout
    refine ⟨_, hstep, (generatorEnabled_prgaLoaded (by exact hf) (by exact hp)).trans ?_⟩
    simp [accessDone, hd, FifoDepth.hasRoom, ← hfull, hout]
  · rw [generatorEnabled_prgaLoaded hf hp, hd]
    rfl

/-! ## What a step does to the output FIFO (R148, R30, R59) -/

section
variable {s t : State}

theorem generatorTurn_outFifo (h : generatorTurn s = .next t) :
    t.outFifo = s.outFifo ∨ ∃ b, t.outFifo = s.outFifo ++ [b] := by
  rcases generatorTurn_cases h with ho | ⟨_, _, -, -, -, hw⟩ | ⟨_, -, -, ho⟩ |
    ⟨_, _, _, -, -, -, ho⟩ | ⟨_, _, -, -, ho⟩
  case inr.inl => exact .inl ((congrArg State.outFifo (takeWord_frame hw)).trans rfl)
  all_goals cases ho
  case inr.inr.inr.inl => exact .inr ⟨_, rfl⟩
  all_goals exact .inl rfl

/-- Only a read of OUT_DATA removes a byte, the head, which it returns. -/
theorem hostAct_outFifo {a : HostAction} {v : Option Word} (h : hostAct a s = .done t v) :
    t.outFifo = s.outFifo ∨ ∃ b, s.outFifo = b :: t.outFifo ∧ v = some (b.setWidth 32) := by
  rcases hostAct_done_cases h with ⟨_, -, -, rfl, -⟩ | ⟨_, -, hc⟩
  · exact .inl rfl
  rcases hostAccess_done_cases hc with rfl | ⟨b, _, hout, rfl, hv⟩ | ⟨_, -, -, rfl⟩ |
    ⟨_, -, -, rfl⟩ | ⟨_, _, _, -, -, -, -, rfl⟩
  case inr.inr.inl => exact .inr ⟨b, hout, hv⟩
  all_goals exact .inl rfl

theorem hostTurn_outFifo {k : Nat} (h : hostTurn k s = .next t) :
    t.outFifo = s.outFifo ∨ ∃ b : Byte, s.outFifo = b :: t.outFifo ∧
      t.hostReads = s.hostReads ++ [b.setWidth 32] := by
  rcases hostTurn_cases h with ho | ⟨_, _, _, -, ha, ho⟩ | ⟨_, _, -, -, ho⟩ <;> cases ho
  · exact .inl rfl
  · exact (hostAct_outFifo ha).imp_right fun ⟨b, hout, hv⟩ => ⟨b, hout, by rw [hv]; rfl⟩

end

/-- Settles O54: by whose turn the step is. -/
theorem outputFifoKeepsOrder : Obligations.OutputFifoKeepsOrder := by
  intro s t h
  rw [← turnTaken_outFifo s, ← turnTaken_hostReads s]
  rcases step_cases h with ⟨hu, ho⟩ | ⟨-, ho⟩ | ⟨k, hu, ho⟩ | ⟨hu, ho⟩
  · exact (generatorTurn_outFifo ho).imp_right fun hb => .inl ⟨hu, hb⟩
  · exact .inl ((congrArg State.outFifo (entropyTurn_frame ho)).trans rfl)
  · exact (hostTurn_outFifo ho).imp_right fun ⟨b, hb⟩ => .inr (.inl ⟨k, b, hu, hb⟩)
  · cases ho
    exact .inr (.inr (.inr ⟨hu, rfl⟩))

/-! ## The byte stream of consecutive PRGA steps (R146, R148) -/

/-- The byte of one whole PRGA step (R141, R142), of which `Generator.discardStep` is the rest. -/
def Generator.nextByte (g : Generator) : Byte := g.advance.outputByte g.advance.tableByte g.cursorJ

section
variable (g : Generator) (m n : Nat)

theorem Generator.discardSteps_add : g.discardSteps (m + n) = (g.discardSteps m).discardSteps n := by
  induction n with
  | zero => rfl
  | succ n ih =>
    rw [← Nat.add_assoc, Generator.discardSteps_succ, ih, ← Generator.discardSteps_succ]

theorem Generator.discardSteps_advance_cursorI :
    (g.discardSteps n).advance.cursorI = cursorAt g.cursorI n :=
  (congrArg Generator.cursorI (g.discardSteps_succ n)).symm.trans (g.discardSteps_cursorI (n + 1))

theorem streamByte_eq_nextByte :
    streamByte (Table.read g.table) g.cursorI g.cursorJ n = (g.discardSteps n).nextByte := by
  rw [Generator.nextByte, Generator.outputByte_eq_swapAt, Generator.discardSteps_advance_cursorI,
    Generator.tableByte, Generator.discardSteps_advance_cursorI, streamByte, streamed,
    ← Generator.discardSteps_eq_streamed]
  rfl

theorem stream_eq_map_nextByte :
    stream g n = (List.range n).map fun k => (g.discardSteps k).nextByte :=
  congrArg (fun f => (List.range n).map f) (funext (streamByte_eq_nextByte g))

/-- The bytes of m + n PRGA steps are those of m steps, then those of n steps from there. -/
theorem stream_add : stream g (m + n) = stream g m ++ stream (g.discardSteps m) n := by
  simp only [stream_eq_map_nextByte, List.range_add, List.map_append, List.map_map,
    Function.comp_def, Generator.discardSteps_add]

theorem stream_succ : stream g (n + 1) = g.nextByte :: stream g.discardStep n := by
  rw [Nat.add_comm, stream_add, stream_eq_map_nextByte g 1]
  rfl

end

/-! ## A GENERATE without a step of another agent between its own (R82, R151) -/

/-- `s` after `n` PRGA steps that end a GENERATE, with the turns `ts` still to come. -/
def bytesGenerated (n : Nat) (ts : List Turn) (s : State) : State :=
  { s with
    turns := ts, gen := s.gen.discardSteps n, outFifo := s.outFifo ++ stream s.gen n
    genPhase := .idle }

/-- `s` after one PRGA step of a GENERATE that had `rem` bytes still to generate. -/
def byteGenerated (rem : BitVec 28) (ts : List Turn) (s : State) : State :=
  { s with
    turns := ts, gen := s.gen.discardStep, outFifo := s.outFifo ++ [s.gen.nextByte]
    genPhase := .counting (rem - 1) }

/-- `s` after a whole GENERATE n whose word stood before the words `ws`. -/
def generated (n : Nat) (ws : List Word) (ts : List Turn) (s : State) : State :=
  bytesGenerated n ts { s with cmdFifo := ws, port := .cmd }

theorem runSteps_add {s t : State} {k m : Nat} (h : runSteps k s = .next t) :
    runSteps (k + m) s = runSteps m t := by
  induction k generalizing s with
  | zero =>
    cases h
    rw [Nat.zero_add]
  | succ k ih =>
    rcases hs : step s with u | r | r
    · rw [runSteps_succ hs] at h
      rw [Nat.add_right_comm, runSteps_succ hs, ih h]
    · simp [runSteps, hs] at h
    · simp [runSteps, hs] at h

section
variable {s : State} {ts : List Turn}

/-- There is room for the next byte, and after it for the others. -/
theorem roomFor_succ {n : Nat} (h : roomFor s (n + 1)) :
    FifoDepth.hasRoom s.params.outFifoDepth s.outFifo.length = true ∧
      ∀ rem, roomFor (byteGenerated rem ts s) n := by
  refine ⟨h 0 n.succ_pos, fun rem k hk => ?_⟩
  have := h (k + 1) (Nat.succ_lt_succ hk)
  simpa [byteGenerated, Nat.add_assoc, Nat.add_comm 1 k] using this

theorem roomFor_bytesGenerated {m n : Nat} (h : roomFor s (m + n)) :
    roomFor (bytesGenerated m ts s) n := by
  intro k hk
  have := h (m + k) (Nat.add_lt_add_left hk m)
  simpa [bytesGenerated, stream, Nat.add_assoc] using this

/-- The two steps of a PRGA step, one after the other. -/
theorem runSteps_prgaStep {rem : BitVec 28} (hts : s.turns = .generator :: .generator :: ts)
    (hf : s.fault = false) (hp : s.genPhase = .gen rem)
    (hroom : FifoDepth.hasRoom s.params.outFifoDepth s.outFifo.length = true) :
    runSteps 2 s = .next (byteGenerated rem ts s) := by
  have hstore := step_prgaStore (s := prgaLoad rem { s with turns := .generator :: ts })
    rfl hf rfl hroom
  refine (runSteps_succ (step_prgaLoad hts hf hp)).trans ((runSteps_succ hstore).trans ?_)
  exact congrArg (fun p => Host.Outcome.next { byteGenerated rem ts s with genPhase := p })
    (phaseAfterByte_eq_counting rem)

/-- The PRGA steps of a GENERATE, by induction on the bytes still to generate. -/
theorem runSteps_prgaSteps {n : Nat} {rem : BitVec 28} (hrem : rem.toNat = n)
    (hts : s.turns = List.replicate (2 * n) .generator ++ ts) (hf : s.fault = false)
    (hp : s.genPhase = .counting rem) (hroom : roomFor s n) :
    runSteps (2 * n) s = .next (bytesGenerated n ts s) := by
  induction n generalizing s rem with
  | zero =>
    obtain rfl : rem = 0 := BitVec.eq_of_toNat_eq hrem
    have hidle : s.genPhase = .idle := hp
    obtain rfl : s.turns = ts := hts
    simp [bytesGenerated, Generator.discardSteps, stream, ← hidle]
  | succ n ih =>
    have hne : rem ≠ 0 := by
      rintro rfl
      cases hrem
    have hpred : (rem - 1).toNat = n := by bv_omega
    obtain ⟨hnow, hlater⟩ := roomFor_succ hroom
    have hbyte : runSteps 2 s =
        .next (byteGenerated rem (List.replicate (2 * n) .generator ++ ts) s) :=
      runSteps_prgaStep hts hf (hp.trans (if_neg hne)) hnow
    rw [Nat.mul_succ, Nat.add_comm, runSteps_add hbyte,
      ih hpred rfl (by exact hf) rfl (hlater rem)]
    simp [byteGenerated, bytesGenerated, stream_succ, Generator.discardSteps]

/-- The step that takes a GENERATE word on an initialised core. -/
theorem step_takeGenerate {n : BitVec 28} {w : Word} {ws : List Word} (hready : idleAndReady s)
    (hd : decode w = .instr (.generate n)) (hw : s.cmdFifo = w :: ws)
    (hts : s.turns = .generator :: ts) :
    step s = .next { s with
      turns := ts, cmdFifo := ws, port := .cmd, genPhase := .counting n } := by
  obtain ⟨hf, hr, hp⟩ := hready
  rw [stepRunsTheDecodedCommand.1 s w ws ts _ hts hf hp hw hd, exec_generate]
  · rcases startGenerate_cases rfl with ⟨hn, ho⟩ | ⟨hn, ho⟩
    · rw [ho, GenPhase.counting, if_pos hn, ← hp]
    · rw [ho, GenPhase.counting, if_neg hn]
  · rfl
  · exact hr

/-- A whole GENERATE n: the step that takes its word, then the two steps of each byte. -/
theorem runSteps_generate {n : BitVec 28} {w : Word} {ws : List Word} (hready : idleAndReady s)
    (hd : decode w = .instr (.generate n)) (hw : s.cmdFifo = w :: ws)
    (hts : s.turns = List.replicate (2 * n.toNat + 1) .generator ++ ts)
    (hroom : roomFor s n.toNat) :
    runSteps (2 * n.toNat + 1) s = .next (generated n.toNat ws ts s) := by
  have ⟨hf, _⟩ := hready
  exact (runSteps_succ (step_takeGenerate hready hd hw hts)).trans
    (runSteps_prgaSteps rfl rfl hf rfl hroom)

/-- A whole GENERATE n, with its word and its turns put in the place of those of `s`. -/
theorem runSteps_queuedGenerate {n : BitVec 28} {w : Word} (ws : List Word) (ts : List Turn)
    (hready : idleAndReady s) (hd : decode w = .instr (.generate n)) (hroom : roomFor s n.toNat) :
    runSteps (2 * n.toNat + 1) { s with
      cmdFifo := w :: ws, turns := List.replicate (2 * n.toNat + 1) .generator ++ ts } =
        .next (generated n.toNat ws ts s) :=
  runSteps_generate (s := { s with
    cmdFifo := w :: ws, turns := List.replicate (2 * n.toNat + 1) .generator ++ ts })
    hready hd rfl rfl hroom

end

/-- Settles O28: the whole GENERATE, with its PRGA steps over function tables. -/
theorem generateEmitsItsStream : Obligations.GenerateEmitsItsStream := by
  intro s n w ws ts hready hd hw hts hroom
  refine ⟨s.gen.discardSteps n.toNat, ?_, ?_⟩
  · have ⟨_, _, hidle⟩ := hready
    rw [runSteps_generate hready hd hw hts hroom, generated, bytesGenerated, ← hidle]
  · rw [← Generator.discardSteps_eq_streamed]
    exact ⟨fun _ => rfl, s.gen.discardSteps_cursorI n.toNat, rfl⟩

/-- Settles O29: the bytes and the generator state of a + b PRGA steps are those of a steps and then of
b steps. -/
theorem splitGenerateIsOneGenerate : Obligations.SplitGenerateIsOneGenerate := by
  intro s a b wa wb wc ws ts hready hsum hda hdb hdc hroom
  have ⟨hf, hr, _⟩ := hready
  have hab : (a + b).toNat = a.toNat + b.toNat := BitVec.toNat_add_of_lt hsum
  have hcount : 2 * (a.toNat + b.toNat) + 2 = (2 * a.toNat + 1) + (2 * b.toNat + 1) := by omega
  have hfirst := runSteps_queuedGenerate (wb :: ws)
    (List.replicate (2 * b.toNat + 1) .generator ++ ts) hready hda
    fun k hk => hroom k (Nat.lt_add_right _ hk)
  have hsecond := runSteps_queuedGenerate ws ts
    (s := generated a.toNat (wb :: ws) (List.replicate (2 * b.toNat + 1) .generator ++ ts) s)
    ⟨hf, hr, rfl⟩ hdb (roomFor_bytesGenerated hroom)
  have hone := runSteps_queuedGenerate ws ts hready hdc (hab ▸ hroom)
  rw [hab] at hone
  refine ⟨_, ?_, hone⟩
  rw [hcount, List.replicate_add, List.append_assoc]
  refine ((runSteps_add hfirst).trans hsecond).trans ?_
  simp [generated, bytesGenerated, stream_add, Generator.discardSteps_add]

end Sys2Proof.Machine

namespace Sys2Proof.Machine

open Sys2Proof.Spec

/-! ## The value that ADD_ENTROPY stores (42_entropy.md R160, R167, R171) -/

section
variable (c : Word) (e : Half)

theorem newCursorJ_eq_entropyValue : newCursorJ c e = entropyValue e c := rfl

/-- ADD_ENTROPY leaves `cursor_j` as it is exactly when it leaves its high half as it is. -/
theorem newCursorJ_eq_self_iff :
    newCursorJ c e = c ↔ (highHalf c).rotateLeft 1 + e = highHalf c := by
  refine ⟨fun h => ?_, fun h => ?_⟩
  · rw [← rotl_half]
    exact (highHalf_newCursorJ c e).symm.trans (congrArg highHalf h)
  · exact (congrArg (concat · (lowHalf c)) h).trans (concat_halves c)

end

/-- A rotation by one copies each bit to the next place, so it fixes only all zeros and all ones. -/
theorem rotateLeft_one_eq_self_iff (h : Half) : h.rotateLeft 1 = h ↔ h = 0x0000 ∨ h = 0xFFFF := by
  refine ⟨fun heq => ?_, ?_⟩
  · have hbit : ∀ b, b < 16 → h.getLsbD b = h.getLsbD 0 := by
      intro b
      induction b with
      | zero => exact fun _ => rfl
      | succ b ih =>
        intro hb
        rw [← ih (by omega)]
        conv_lhs => rw [← heq, ← rotl_half, getLsbD_rotl_one]
        simp [hb]
    cases h0 : h.getLsbD 0 with
    | false =>
      refine .inl (BitVec.eq_of_getLsbD_eq fun b hb => ?_)
      rw [hbit b hb, h0, BitVec.ofNat_eq_ofNat, BitVec.getLsbD_zero]
    | true =>
      have hones : (0xFFFF : Half) = BitVec.allOnes 16 := by decide
      refine .inr (BitVec.eq_of_getLsbD_eq fun b hb => ?_)
      rw [hbit b hb, h0, hones, BitVec.getLsbD_allOnes, decide_eq_true hb]
  · rintro (rfl | rfl) <;> decide

/-- Settles O35: each clause is about the high half, which is rotated and then added to. -/
theorem entropyFixedPoints : Obligations.EntropyFixedPoints := by
  have hany : ∀ (c : Word) (e : Half),
      newCursorJ c e = c ↔ e = highHalf c - (highHalf c).rotateLeft 1 := fun c e => by
    rw [newCursorJ_eq_self_iff, eq_sub_iff_add_eq']
  refine ⟨fun c => ?_, hany, fun c hc => ?_, fun c hc => ?_⟩
  · rw [newCursorJ_eq_self_iff, add_zero, rotateLeft_one_eq_self_iff]
  · rw [hany, hc]
    decide
  · rw [highHalf_newCursorJ, hc]
    decide

/-- Settles O37: each injection rotates the high half and adds to it. -/
theorem injectionsAccumulate : Obligations.InjectionsAccumulate := by
  intro c e1 e2
  simp only [highHalf_newCursorJ, lowHalf_newCursorJ, hiRot, rotl_half, and_self]

/-! ## The load and the store of ADD_ENTROPY on either port (42_entropy.md R161 to R163) -/

section
variable {s : State} {e : Half} {seen w : Word} {ts : List Turn}

/-- On an initialised core no check of R193 applies to ADD_ENTROPY. -/
theorem exec_addEntropy (hr : s.ready = true) : exec (.addEntropy e) s = loadEntropy e s := by
  change checked _ _ s _ = _
  rw [(notReadyFault_eq_none s).2 hr, checked_none]

theorem loadEntropy_cmd (hp : s.port = .cmd) :
    loadEntropy e s = .next { s with genPhase := .entLoaded e s.gen.cursorJ } := by
  simp only [loadEntropy, hp, atomicLoad]

theorem loadEntropy_ent (hp : s.port = .ent) : loadEntropy e s =
    .next { s with entPhase := .loaded e s.gen.cursorJ (encode (.addEntropy e)) } := by
  simp only [loadEntropy, hp, atomicLoad]

/-- E_LOAD of ADD_ENTROPY e (R161). -/
theorem step_entropyLoad (hts : s.turns = .entropy :: ts) (hf : s.fault = false)
    (hr : s.ready = true) (hp : s.entPhase = .idle) (hw : s.entReg = some w)
    (hd : decode w = .instr (.addEntropy e)) :
    step s = .next { s with
      turns := ts, port := .ent, entReg := none, entPhase := .loaded e s.gen.cursorJ w } := by
  rw [stepRunsTheDecodedCommand.2 s w ts _ hts hf hp hw hd, exec_addEntropy, loadEntropy_ent,
    encode_of_decode hd]
  · rfl
  · exact hr

/-- G_TAKE of ADD_ENTROPY e (R163). -/
theorem step_takeEntropy {ws : List Word} (hts : s.turns = .generator :: ts)
    (hready : idleAndReady s) (hw : s.cmdFifo = w :: ws)
    (hd : decode w = .instr (.addEntropy e)) :
    step s = .next { s with
      turns := ts, port := .cmd, cmdFifo := ws, genPhase := .entLoaded e s.gen.cursorJ } := by
  obtain ⟨hf, hr, hp⟩ := hready
  rw [stepRunsTheDecodedCommand.1 s w ws ts _ hts hf hp hw hd, exec_addEntropy, loadEntropy_cmd]
  · rfl
  · exact hr

/-- E_STORE (R162). -/
theorem step_entropyStore (hts : s.turns = .entropy :: ts) (hf : s.fault = false)
    (hp : s.entPhase = .loaded e seen w) :
    step s = .next (entEntropyStore e seen { s with turns := ts }) :=
  (step_entropy hts).trans (entropyTurn_loaded hf hp)

/-- G_ENT_STORE (R163). -/
theorem step_cmdEntropyStore (hts : s.turns = .generator :: ts) (hf : s.fault = false)
    (hp : s.genPhase = .entLoaded e seen) :
    step s = .next (cmdEntropyStore e seen { s with turns := ts }) :=
  (step_generator hts).trans (generatorTurn_entLoaded hf hp)

end

/-- R94: the word of ADD_ENTROPY e is 0x4000_0000 with e in its low half. -/
theorem encode_addEntropy_toNat (e : Half) :
    (encode (.addEntropy e)).toNat = 4 * 2 ^ 28 + e.toNat := by
  have hrow : 4 * 2 ^ 28 = 0x40000000 := rfl
  rw [hrow, Laws.TableRow.addEntropy e, Laws.TableRow.rowMatch, Laws.TableRow.operand]

/-- Settles O31: no check applies, and the load is its port's; the word held is the command's. -/
theorem addEntropyLoadsOnEitherPort : Obligations.AddEntropyLoadsOnEitherPort := by
  intro s e hr
  rw [exec_addEntropy hr]
  exact ⟨loadEntropy_cmd, fun hp =>
    ⟨encode (.addEntropy e), encode_addEntropy_toNat e, loadEntropy_ent hp⟩⟩

/-- Settles O32: both stores write `newCursorJ` of the value loaded. -/
theorem entropyStoreStep : Obligations.EntropyStoreStep :=
  ⟨fun _ e seen _ _ hts hf hp => ⟨newCursorJ seen e, highHalf_newCursorJ seen e,
      lowHalf_newCursorJ seen e, step_entropyStore hts hf hp⟩,
    fun _ e seen _ hts hf hp => ⟨newCursorJ seen e, highHalf_newCursorJ seen e,
      lowHalf_newCursorJ seen e, step_cmdEntropyStore hts hf hp⟩⟩

/-! ## Runs of two and of four steps -/

theorem runSteps_two {s t u : State} (h1 : step s = .next t) (h2 : step t = .next u) :
    runSteps 2 s = .next u :=
  (runSteps_succ h1).trans (runSteps_succ h2)

theorem runSteps_four {s t u v x : State} (h1 : step s = .next t) (h2 : step t = .next u)
    (h3 : step u = .next v) (h4 : step v = .next x) : runSteps 4 s = .next x :=
  (runSteps_add (runSteps_two h1 h2)).trans (runSteps_two h3 h4)

/-- Settles O33: the load step, then the store step. -/
theorem uninterruptedAddEntropy : Obligations.UninterruptedAddEntropy := by
  refine ⟨fun s e w ts hf hr hp hw hd hts => ?_, fun s e w ws ts hready hw hd hts => ?_⟩
  · rw [runSteps_two (step_entropyLoad hts hf hr hp hw hd) (step_entropyStore rfl hf rfl),
      entEntropyStore, ← hp]
    rfl
  · have ⟨hf, _, hp⟩ := hready
    rw [runSteps_two (step_takeEntropy hts hready hw hd) (step_cmdEntropyStore rfl hf rfl),
      cmdEntropyStore, ← hp]
    rfl

/-! ## Two ADD_ENTROPY in flight at once (R168) -/

/-- Both ports' ADD_ENTROPY load the same `cursor_j`, in either order. -/
theorem runSteps_bothLoads {s : State} {e1 e2 : Half} {w1 w2 : Word} {ws : List Word}
    {ts : List Turn} (hready : idleAndReady s) (hp : s.entPhase = .idle)
    (hcmd : s.cmdFifo = w1 :: ws) (hent : s.entReg = some w2)
    (hd1 : decode w1 = .instr (.addEntropy e1)) (hd2 : decode w2 = .instr (.addEntropy e2))
    (hts : s.turns = .generator :: .entropy :: ts ∨ s.turns = .entropy :: .generator :: ts) :
    ∃ t, runSteps 2 s = .next t ∧ t.turns = ts ∧ t.fault = false ∧
      t.genPhase = .entLoaded e1 s.gen.cursorJ ∧ t.entPhase = .loaded e2 s.gen.cursorJ w2 := by
  have ⟨hf, hr, hidle⟩ := hready
  rcases hts with hts | hts
  · exact ⟨_, runSteps_two (step_takeEntropy hts hready hcmd hd1)
      (step_entropyLoad rfl hf hr hp hent hd2), rfl, hf, rfl, rfl⟩
  · exact ⟨_, runSteps_two (step_entropyLoad hts hf hr hp hent hd2)
      (step_takeEntropy rfl ⟨hf, hr, hidle⟩ hcmd hd1), rfl, hf, rfl, rfl⟩

/-- Settles O36: after both loads the second store overwrites the first. -/
theorem twoInjectorsLoseOneUpdate : Obligations.TwoInjectorsLoseOneUpdate := by
  intro s e1 e2 w1 w2 ws ts order hready hp hcmd hent hd1 hd2 hts
  have hturns {order' : List Turn} (h : order = order') : s.turns = order' ++ ts := h ▸ hts
  refine ⟨fun ho => ?_, fun ho => ?_⟩
  · obtain ⟨t, hrun, htt, hf, hgen, hep⟩ := runSteps_bothLoads (ts := .generator :: .entropy :: ts)
      hready hp hcmd hent hd1 hd2 (ho.imp hturns hturns)
    exact ⟨_, (runSteps_add hrun).trans (runSteps_two (step_cmdEntropyStore htt hf hgen)
      (step_entropyStore rfl hf hep)), newCursorJ_eq_entropyValue _ e2, hf, rfl, rfl⟩
  · obtain ⟨t, hrun, htt, hf, hgen, hep⟩ := runSteps_bothLoads (ts := .entropy :: .generator :: ts)
      hready hp hcmd hent hd1 hd2 (ho.imp hturns hturns)
    exact ⟨_, (runSteps_add hrun).trans (runSteps_two (step_entropyStore htt hf hep)
      (step_cmdEntropyStore rfl hf hgen)), newCursorJ_eq_entropyValue _ e1, hf, rfl, rfl⟩

/-! ## A PRGA step and an ADD_ENTROPY (R165) -/

/-- `s` after a PRGA step that loaded `pSeen` and an ADD_ENTROPY on the ENT port, in an order that
leaves `final` in `cursor_j`. -/
def raced (rem : BitVec 28) (pSeen final : Word) (ts : List Turn) (s : State) : State :=
  let g := s.gen.advance
  { s with
    turns := ts, port := .ent, entReg := none, entPhase := .idle, genPhase := phaseAfterByte rem
    gen := { g.store g.tableByte pSeen with cursorJ := final }
    outFifo := s.outFifo ++ [g.outputByte g.tableByte pSeen] }

theorem raceEnds_of_raced {s : State} {rem : BitVec 28} {order : List Turn} {pSeen final : Word}
    (hf : s.fault = false)
    (h : ∀ ts, s.turns = order ++ ts → runSteps 4 s = .next (raced rem pSeen final ts s)) :
    raceEnds s order final pSeen := by
  intro ts hts i a j0 u
  refine ⟨_, h ts hts, hf, rfl, rfl, rfl, ?_, ?_⟩
  · exact congrFun (s.gen.advance.read_store_table _ pSeen)
  · exact congrArg (fun b => s.outFifo ++ [b]) (s.gen.advance.outputByte_eq_swapAt _ pSeen)

/-- Settles O34: the four steps of each order, in the order of R165's table; PL and EL load what the
stores before them left. -/
theorem sixInterleavings : Obligations.SixInterleavings := by
  rintro s rem e ⟨hf, hr, hgp, hep, ⟨w, hw, hd⟩, hroom⟩ c f g
  have hroom := hroom 0 Nat.one_pos
  have hel {ts : List Turn} (hts : s.turns = .entropy :: ts) :=
    step_entropyLoad hts hf hr hep hw hd
  have hpl {ts : List Turn} (hts : s.turns = .generator :: ts) := step_prgaLoad hts hf hgp
  refine ⟨?_, ?_, ?_, ?_, ?_, ?_⟩ <;> refine raceEnds_of_raced (rem := rem) hf fun ts hts => ?_
  · exact (runSteps_four (hel hts) (step_entropyStore rfl hf rfl) (step_prgaLoad rfl hf hgp)
      (step_prgaStore rfl hf rfl hroom)).trans rfl
  · exact (runSteps_four (hpl hts) (step_prgaStore rfl hf rfl hroom)
      (step_entropyLoad rfl hf hr hep hw hd) (step_entropyStore rfl hf rfl)).trans rfl
  · exact (runSteps_four (hel hts) (step_prgaLoad rfl hf hgp) (step_prgaStore rfl hf rfl hroom)
      (step_entropyStore rfl hf rfl)).trans rfl
  · exact (runSteps_four (hpl hts) (step_entropyLoad rfl hf hr hep hw hd)
      (step_prgaStore rfl hf rfl hroom) (step_entropyStore rfl hf rfl)).trans rfl
  · exact (runSteps_four (hel hts) (step_prgaLoad rfl hf hgp) (step_entropyStore rfl hf rfl)
      (step_prgaStore rfl hf rfl hroom)).trans rfl
  · exact (runSteps_four (hpl hts) (step_entropyLoad rfl hf hr hep hw hd)
      (step_entropyStore rfl hf rfl) (step_prgaStore rfl hf rfl hroom)).trans rfl

/-! ## The lowest bit in which two words differ (R166) -/

/-- The words have the same bits [p-1:0]. -/
def agreeBelow (p : Nat) (x y : Word) : Prop := ∀ b, b < p → x.getLsbD b = y.getLsbD b

section
variable {p : Nat} {x y : Word}

theorem agreeBelow_succ_iff :
    agreeBelow (p + 1) x y ↔ agreeBelow p x y ∧ x.getLsbD p = y.getLsbD p :=
  Nat.forall_lt_succ_right

theorem agreeBelow_iff_setWidth : agreeBelow p x y ↔ x.setWidth p = y.setWidth p := by
  refine ⟨fun h => BitVec.eq_of_getLsbD_eq fun b hb => ?_, fun h b hb => ?_⟩
  · rw [BitVec.getLsbD_setWidth, BitVec.getLsbD_setWidth, h b hb]
  · have hbit := congrArg (BitVec.getLsbD · b) h
    simpa [BitVec.getLsbD_setWidth, hb] using hbit

theorem agreeBelow_mono {q : Nat} (hqp : q ≤ p) (h : agreeBelow p x y) : agreeBelow q x y :=
  fun b hb => h b (Nat.lt_of_lt_of_le hb hqp)

theorem lowByte_eq_iff_agreeBelow : lowByte x = lowByte y ↔ agreeBelow 8 x y := by
  rw [agreeBelow_iff_setWidth, lowByte_eq_setWidth, lowByte_eq_setWidth]

/-- R166: "Adding the same a to two words keeps their lowest differing bit." -/
theorem agreeBelow_add_iff (a : Word) (hp : p ≤ 32) :
    agreeBelow p (x + a) (y + a) ↔ agreeBelow p x y := by
  simp only [agreeBelow_iff_setWidth, BitVec.setWidth_add _ _ hp, BitVec.add_left_inj]

/-- R166: the rotation "moves each differing bit up by one, and bit 31 to bit 0". -/
theorem agreeBelow_rotl_iff (hp : p ≤ 31) : agreeBelow (p + 1) (rotl x 1) (rotl y 1) ↔
    x.getLsbD 31 = y.getLsbD 31 ∧ agreeBelow p x y := by
  refine Nat.forall_lt_succ_left.trans (and_congr ?_ (forall₂_congr fun b hb => ?_))
  · simp only [getLsbD_rotl_one, Nat.zero_lt_succ, decide_true, Bool.true_and, if_true]
  · simp only [getLsbD_rotl_one, show b + 1 < 31 + 1 by omega, decide_true, Bool.true_and,
      if_neg b.succ_ne_zero, Nat.add_sub_cancel]

theorem agreeBelow_prgaCursorJ_iff (a : Byte) (hp : p ≤ 31) :
    agreeBelow (p + 1) (prgaCursorJ x a) (prgaCursorJ y a) ↔
      x.getLsbD 31 = y.getLsbD 31 ∧ agreeBelow p x y :=
  (agreeBelow_add_iff _ (Nat.succ_le_succ hp)).trans (agreeBelow_rotl_iff hp)

end

/-! ## Two runs of PRGA steps whose `cursor_j` differ (R166) -/

/-- R166: the same `T` and `cursor_i`, and `k` is the lowest bit where the two `cursor_j` differ. -/
structure DivergeAt (k : Nat) (g h : Generator) : Prop where
  table : g.table = h.table
  cursorI : g.cursorI = h.cursorI
  below : agreeBelow k g.cursorJ h.cursorJ
  bit : g.cursorJ.getLsbD k ≠ h.cursorJ.getLsbD k

/-- R166: "their j0 values agree at steps 1 to m - 1 and differ at step m", and before step m the
runs have the same table, `cursor_i` and bytes. -/
structure IndexDiffersFirstAt (m : Nat) (g h : Generator) : Prop where
  agree : ∀ n, 1 ≤ n → n < m →
    lowByte (g.discardSteps n).cursorJ = lowByte (h.discardSteps n).cursorJ
  differ : lowByte (g.discardSteps m).cursorJ ≠ lowByte (h.discardSteps m).cursorJ
  same : ∀ n, n < m → (g.discardSteps n).table = (h.discardSteps n).table ∧
    (g.discardSteps n).cursorI = (h.discardSteps n).cursorI
  bytes : stream g (m - 1) = stream h (m - 1)

section
variable (g : Generator)

/-- R142: the swap of one PRGA step, at its own j0. -/
theorem Generator.discardStep_table : g.discardStep.table =
    Table.swap g.table (g.cursorI + prgaStride) (lowByte g.discardStep.cursorJ) := rfl

/-- R142: the byte of one PRGA step, with its own j0. -/
theorem Generator.nextByte_eq : g.nextByte = Table.read g.discardStep.table
    (Table.read g.table (g.cursorI + prgaStride) +
      Table.read g.table (lowByte g.discardStep.cursorJ)) := rfl

end

section
variable {g h : Generator} {k m : Nat}

/-- The two runs read the same byte `a`. -/
theorem agreeBelow_discardStep_iff {p : Nat} (ht : g.table = h.table) (hi : g.cursorI = h.cursorI)
    (hp : p ≤ 31) : agreeBelow (p + 1) g.discardStep.cursorJ h.discardStep.cursorJ ↔
      g.cursorJ.getLsbD 31 = h.cursorJ.getLsbD 31 ∧ agreeBelow p g.cursorJ h.cursorJ := by
  have ha : g.advance.tableByte = h.advance.tableByte := by
    simp [Generator.tableByte, ht, hi]
  rw [Generator.discardStep, Generator.discardStep, ← ha]
  exact agreeBelow_prgaCursorJ_iff _ hp

/-- A PRGA step with the same j0 swaps the same elements and gives the same byte. -/
theorem Generator.discardStep_congr (ht : g.table = h.table) (hi : g.cursorI = h.cursorI)
    (hj : lowByte g.discardStep.cursorJ = lowByte h.discardStep.cursorJ) :
    g.discardStep.table = h.discardStep.table ∧ g.discardStep.cursorI = h.discardStep.cursorI ∧
      g.nextByte = h.nextByte := by
  have hadv : g.advance.cursorI = h.advance.cursorI := congrArg (· + prgaStride) hi
  have htable : g.discardStep.table = h.discardStep.table := by
    rw [Generator.discardStep_table, Generator.discardStep_table, ht, hi, hj]
  exact ⟨htable, hadv, by
    rw [Generator.nextByte_eq, Generator.nextByte_eq, htable, ht, hi, hj]⟩

/-- Where bit 31 differs, the rotation brings the difference to bit 0. -/
theorem DivergeAt.differs_of_top_bit (hd : DivergeAt k g h)
    (htop : g.cursorJ.getLsbD 31 ≠ h.cursorJ.getLsbD 31) : IndexDiffersFirstAt 1 g h where
  agree _ h1 h2 := absurd h1 (Nat.not_le.2 h2)
  differ hj := by
    have h0 := agreeBelow_mono Nat.one_le_ofNat (lowByte_eq_iff_agreeBelow.1 hj)
    exact htop ((agreeBelow_discardStep_iff hd.table hd.cursorI (Nat.zero_le _)).1 h0).1
  same n hn := by
    obtain rfl := Nat.lt_one_iff.1 hn
    exact ⟨hd.table, hd.cursorI⟩
  bytes := rfl

/-- Where bit 31 agrees, the lowest differing bit moves up by one, clear of the low byte. -/
theorem DivergeAt.discardStep (hd : DivergeAt k g h) (hk : k ≤ 30) (hk8 : 8 ≤ k)
    (htop : g.cursorJ.getLsbD 31 = h.cursorJ.getLsbD 31) :
    lowByte g.discardStep.cursorJ = lowByte h.discardStep.cursorJ ∧
      DivergeAt (k + 1) g.discardStep h.discardStep := by
  have hagree : ∀ {p}, p ≤ 31 → (agreeBelow (p + 1) g.discardStep.cursorJ h.discardStep.cursorJ ↔
      agreeBelow p g.cursorJ h.cursorJ) := fun hp =>
    (agreeBelow_discardStep_iff hd.table hd.cursorI hp).trans (and_iff_right htop)
  have hbelow := (hagree (by omega)).2 hd.below
  have hj := lowByte_eq_iff_agreeBelow.2 (agreeBelow_mono (by omega) hbelow)
  obtain ⟨htable, hcursorI, -⟩ := Generator.discardStep_congr hd.table hd.cursorI hj
  refine ⟨hj, htable, hcursorI, hbelow, fun hbit => hd.bit ?_⟩
  have := (hagree (Nat.succ_le_succ hk)).1 (agreeBelow_succ_iff.2 ⟨hbelow, hbit⟩)
  exact (agreeBelow_succ_iff.1 this).2

/-- A PRGA step with the same j0 puts the first difference off by one. -/
theorem IndexDiffersFirstAt.succ (ht : g.table = h.table) (hi : g.cursorI = h.cursorI)
    (hj : lowByte g.discardStep.cursorJ = lowByte h.discardStep.cursorJ) (hm : 1 ≤ m)
    (hd : IndexDiffersFirstAt m g.discardStep h.discardStep) : IndexDiffersFirstAt (m + 1) g h where
  agree
    | 1, _, _ => hj
    | n + 2, _, hn => hd.agree (n + 1) n.succ_pos (Nat.lt_of_succ_lt_succ hn)
  differ := hd.differ
  same
    | 0, _ => ⟨ht, hi⟩
    | n + 1, hn => hd.same n (Nat.lt_of_succ_lt_succ hn)
  bytes := by
    obtain ⟨m, rfl⟩ := Nat.exists_eq_add_of_le' hm
    obtain ⟨-, -, hbyte⟩ := Generator.discardStep_congr ht hi hj
    exact (stream_succ g m).trans
      ((congr (congrArg List.cons hbyte) hd.bytes).trans (stream_succ h m).symm)

/-- R166, by induction on how far bit k is below bit 31. -/
theorem DivergeAt.index_differs {d : Nat} (hd : DivergeAt k g h) (hk : 16 ≤ k) (hkd : k + d = 31) :
    ∃ m, 1 ≤ m ∧ m ≤ d + 1 ∧ IndexDiffersFirstAt m g h := by
  induction d generalizing g h k with
  | zero =>
    obtain rfl : k = 31 := hkd
    exact ⟨1, le_rfl, le_rfl, hd.differs_of_top_bit hd.bit⟩
  | succ d ih =>
    by_cases htop : g.cursorJ.getLsbD 31 = h.cursorJ.getLsbD 31
    · obtain ⟨hj, hnext⟩ := hd.discardStep (by omega) (by omega) htop
      obtain ⟨m, h1, hm, hfirst⟩ := ih hnext (by omega) (by omega)
      exact ⟨m + 1, Nat.le_add_left .., Nat.succ_le_succ hm,
        hfirst.succ hd.table hd.cursorI hj h1⟩
    · exact ⟨1, le_rfl, Nat.le_add_left .., hd.differs_of_top_bit htop⟩

end

/-- Settles O38: the lowest differing bit moves up by one per PRGA step until a differing bit wraps
to bit 0. -/
theorem entropyReachesIndexWithinSixteenSteps :
    Obligations.EntropyReachesIndexWithinSixteenSteps := by
  intro g h k ht hi hk hk31 hbelow hbit
  obtain ⟨m, h1, hm, hfirst⟩ :=
    DivergeAt.index_differs (d := 31 - k) ⟨ht, hi, hbelow, hbit⟩ hk (by omega)
  exact ⟨m, h1, by omega, hfirst.agree, hfirst.differ, hfirst.same, hfirst.bytes⟩

end Sys2Proof.Machine

namespace Sys2Proof.Machine

open Sys2Proof.Spec

/-! ## The step that takes a RESET (43_reset.md R180, R181, R183) -/

section
variable {s : State} {L : BitVec 28} {i : Instr} {g : Generator}

/-- An INIT or RESET that meets no check completes with the generator state that its key bytes give. -/
theorem exec_keyCommand_of_keyed (hlegal : keyCommandLegal s L)
    (hi : i = .init L ∨ (i = .reset L ∧ s.ready = true))
    (hg : keyedGenerator s.key L.toNat = some g) :
    exec i s = .next { s with gen := g, ready := true } := by
  rw [exec_keyCommand hlegal hi, rekey, keyLength, hg]

/-- Check 4 of R193 precedes the checks of the key length and of the ENT-port injection. -/
theorem exec_reset_of_not_ready (hport : s.port = .cmd) (hr : s.ready = false) :
    exec (.reset L) s = .next (raiseFault .notInitialized .cmd (encode (.reset L)) s) := by
  change checked _ _ s _ = _
  rw [(portFault_eq_none s).2 hport, notReadyFault, if_pos hr, ← hport]
  rfl

end

/-- Settles O14: the two commands share one body, and RESET alone makes check 4. -/
theorem resetEqualsInitWhenReady : Obligations.ResetEqualsInitWhenReady := by
  intro s L hlegal
  have ⟨hport, _⟩ := hlegal
  exact ⟨fun hr => (exec_keyCommand hlegal (.inr ⟨rfl, hr⟩)).trans
      (exec_keyCommand hlegal (.inl rfl)).symm,
    exec_reset_of_not_ready hport⟩

/-- Settles O13: RESET builds the generator state as INIT does, and READY was 1 before it. -/
theorem resetBuildsGeneratorFromKey : Obligations.ResetBuildsGeneratorFromKey := by
  intro s L key hr hlegal hkey
  have ⟨_, hlen, _⟩ := hlegal
  obtain ⟨g, hg, hbuilt⟩ := keyedGenerator_builtFrom hlen hkey
  refine ⟨g, ?_, hbuilt⟩
  rw [exec_keyCommand_of_keyed hlegal (.inr ⟨rfl, hr⟩) hg, ← hr]

/-! ## A key command and the GENERATE after it, with no step of another agent (43_reset.md R182) -/

/-- The generator agent is about to take a CMD word, an INIT L or RESET L there meets no check but
perhaps check 4, and its key bytes give `g`. -/
def takesKey (L : BitVec 28) (g : Generator) (s : State) : Prop :=
  s.fault = false ∧ s.genPhase = .idle ∧ keyCommandLegal (onPort .cmd s) L ∧
    keyedGenerator s.key L.toNat = some g

/-- `s` after a key command that gave `g` and a whole GENERATE n, whose words stood before `ws`. -/
def keyedStream (g : Generator) (n : Nat) (ws : List Word) (ts : List Turn) (s : State) : State :=
  generated n ws ts { s with gen := g, ready := true }

section
variable {s : State} {L n : BitVec 28} {i : Instr} {g : Generator} {w wg : Word} {ws : List Word}
  {ts : List Turn}

/-- Neither command writes a key byte, so the same key command would give the same state again. -/
theorem takesKey_keyedStream {m : Nat} (h : takesKey L g s) :
    takesKey L g (keyedStream g m ws ts s) := by
  obtain ⟨hf, -, hlegal, hg⟩ := h
  exact ⟨hf, rfl, hlegal, hg⟩

theorem step_takeKeyCommand (h : takesKey L g s)
    (hi : i = .init L ∨ (i = .reset L ∧ s.ready = true)) (hd : decode w = .instr i)
    (hw : s.cmdFifo = w :: ws) (hts : s.turns = .generator :: ts) :
    step s = .next { s with
      turns := ts, cmdFifo := ws, port := .cmd, gen := g, ready := true } := by
  obtain ⟨hf, hp, hlegal, hg⟩ := h
  rw [stepRunsTheDecodedCommand.1 s w ws ts i hts hf hp hw hd]
  exact exec_keyCommand_of_keyed hlegal hi hg

/-- The step of the key command, then the 2n + 1 steps of the GENERATE. -/
theorem runSteps_keyedStream (h : takesKey L g s)
    (hi : i = .init L ∨ (i = .reset L ∧ s.ready = true)) (hd : decode w = .instr i)
    (hdg : decode wg = .instr (.generate n)) (hw : s.cmdFifo = w :: wg :: ws)
    (hts : s.turns = List.replicate (2 * n.toNat + 2) .generator ++ ts)
    (hroom : roomFor s n.toNat) :
    runSteps (2 * n.toNat + 2) s = .next (keyedStream g n.toNat ws ts s) := by
  have ⟨hf, hp, _⟩ := h
  exact (runSteps_succ (step_takeKeyCommand h hi hd hw hts)).trans
    (runSteps_generate ⟨hf, rfl, hp⟩ hdg rfl rfl hroom)

end

/-- Settles O30: INIT and RESET build the same generator state `g` from the unchanged key, so both
GENERATEs append the stream of `g`. -/
theorem resetRepeatsTheStream : Obligations.ResetRepeatsTheStream := by
  intro s L n key wi wg wr ws ts hf hp he hlen hfit hkey hroom hdi hdg hdr hw hts
  obtain ⟨g, hg, -⟩ := keyedGenerator_builtFrom hlen hkey
  have htakes : takesKey L g s := ⟨hf, hp, ⟨rfl, hlen, hfit, he⟩, hg⟩
  have hcount : 4 * n.toNat + 4 = (2 * n.toNat + 2) + (2 * n.toNat + 2) := by omega
  rw [hcount] at hts ⊢
  rw [List.replicate_add, List.append_assoc] at hts
  rw [Nat.two_mul] at hroom
  have hfirst := runSteps_keyedStream htakes (.inl rfl) hdi hdg hw hts
    fun k hk => hroom k (Nat.lt_add_right _ hk)
  have hsecond := runSteps_keyedStream (ws := ws) (ts := ts) (takesKey_keyedStream htakes)
    (.inr ⟨rfl, rfl⟩) hdr hdg rfl rfl (roomFor_bytesGenerated hroom)
  exact ⟨_, stream g n.toNat, (runSteps_add hfirst).trans hsecond, by simp [stream], rfl, rfl, rfl,
    hf, rfl, rfl⟩

end Sys2Proof.Machine

namespace Sys2Proof

open Spec Machine

/-! ## The fields of a command's word, and of a word that is no command (30_encoding.md R90 to R99) -/

section
variable {w : Word}

theorem wordOp_encode (i : Instr) : wordOp (encode i) = (opcode i).toNat := by
  rw [← opField_toNat, opField_encode]

theorem wordArg_encode (i : Instr) : wordArg (encode i) = (argument i).toNat := by
  have harg : (argField (encode i)).toNat = wordArg (encode i) % 2 ^ 28 := by
    rw [argField_eq_ofNat, BitVec.toNat_ofNat]
  rw [← argField_encode i, harg, wordArg, Nat.mod_mod]

theorem wordArg_encode_init (L : BitVec 28) : wordArg (encode (.init L)) = keyLength L :=
  wordArg_encode _

theorem wordArg_encode_reset (L : BitVec 28) : wordArg (encode (.reset L)) = keyLength L :=
  wordArg_encode _

theorem wordRes_encode_addEntropy (e : Half) : wordRes (encode (.addEntropy e)) = 0 := by
  rw [← resField_toNat, resField_encode_addEntropy]
  rfl

theorem wordOp_notMem_of_illegal (hd : decode w = .illegal) : wordOp w ∉ [1, 2, 3, 4] := by
  rw [fieldExtractionIsTotal] at hd
  split_ifs at hd with h1 h2 h3 h4
  simp [h1, h2, h3, h4]

theorem wordOp_wordRes_of_reserved (hd : decode w = .reserved) : wordOp w = 4 ∧ wordRes w ≠ 0 := by
  rw [fieldExtractionIsTotal] at hd
  split_ifs at hd with _ _ _ hop hres
  exact ⟨hop, hres⟩

end

end Sys2Proof

namespace Sys2Proof.Machine

open Sys2Proof.Spec

/-! ## A command's checks and its effect, apart (60_exceptions.md R192, R193) -/

/-- The first check of R193 that applies to a command. -/
def commandFault (i : Instr) (s : State) : Option Cause :=
  match i with
  | .init L => portFault s <|> emptyKeyFault L <|> keyTooLongFault L s <|> overlapFault s
  | .reset L =>
    portFault s <|> notReadyFault s <|> emptyKeyFault L <|> keyTooLongFault L s <|> overlapFault s
  | .generate _ => portFault s <|> notReadyFault s
  | .addEntropy _ => notReadyFault s

/-- What a command does where no check applies. -/
def commandBody (i : Instr) (s : State) : Host.Outcome State Fault Refusal :=
  match i with
  | .init L => rekey L s
  | .reset L => rekey L s
  | .generate n => startGenerate n s
  | .addEntropy e => loadEntropy e s

/-- FAULT, CAUSE, FAULT_PORT and FAULT_CMD are the same in both states. -/
def sameFaultFields (t s : State) : Prop :=
  t.fault = s.fault ∧ t.cause = s.cause ∧ t.faultPort = s.faultPort ∧ t.faultCmd = s.faultCmd

theorem sameFaultFields_refl (s : State) : sameFaultFields s s := ⟨rfl, rfl, rfl, rfl⟩

section
variable {w : Word} {p : Port} {s t : State} {c : Cause} {i : Instr}

theorem exec_eq_checked (i : Instr) (s : State) :
    exec i s = checked i (commandFault i s) s (commandBody i) := by
  cases i <;> rfl

theorem rekey_keeps_fault_fields {L : BitVec 28} (h : rekey L s = .next t) :
    sameFaultFields t s := by
  rcases rekey_cases h with ⟨_, -, ho⟩ | ⟨-, ho⟩ <;> cases ho
  exact sameFaultFields_refl s

theorem commandBody_keeps_fault_fields (h : commandBody i s = .next t) : sameFaultFields t s := by
  cases i with
  | init L => exact rekey_keeps_fault_fields h
  | reset L => exact rekey_keeps_fault_fields h
  | generate n =>
    rcases startGenerate_cases h with ⟨-, ho⟩ | ⟨-, ho⟩ <;> cases ho <;> exact sameFaultFields_refl s
  | addEntropy e =>
    rcases loadEntropy_cases h with ⟨-, ho⟩ | ⟨-, ho⟩ <;> cases ho <;> exact sameFaultFields_refl s

/-! ## The list of R193 on what a word decodes to -/

theorem firstCause_of_illegal (hd : decode w = .illegal) :
    firstCause w p s = some .illegalOpcode :=
  if_pos (wordOp_notMem_of_illegal hd)

theorem firstCause_of_reserved (hd : decode w = .reserved) :
    firstCause w p s = some .reservedNonzero := by
  obtain ⟨hop, hres⟩ := wordOp_wordRes_of_reserved hd
  simp [firstCause, hop, hres]

/-- A check in front of others is the next condition of the list. -/
theorem ite_some_or (q : Prop) [Decidable q] (c : Cause) (rest : Option Cause) :
    (if q then some c else none).or rest = if q then some c else rest := by
  split <;> rfl

/-- The operation code of a command strikes from R193's list the conditions that the command does not
check. -/
theorem firstCause_of_decode (hd : decode w = .instr i) :
    firstCause w s.port s = commandFault i s := by
  cases encode_of_decode hd
  cases i with
  | init L =>
    simp [firstCause, wordOp_encode, opcode, wordArg_encode_init, commandFault, ite_some_or,
      portFault, emptyKeyFault, keyTooLongFault, overlapFault]
  | reset L =>
    simp [firstCause, wordOp_encode, opcode, wordArg_encode_reset, commandFault, ite_some_or,
      portFault, notReadyFault, emptyKeyFault, keyTooLongFault, overlapFault]
  | generate n =>
    simp [firstCause, wordOp_encode, opcode, commandFault, ite_some_or, portFault, notReadyFault]
  | addEntropy e =>
    simp [firstCause, wordOp_encode, opcode, wordRes_encode_addEntropy, commandFault, notReadyFault]

/-! ## Taking a word (R193, R194) -/

theorem raiseFault_eq_faulted (c : Cause) (p : Port) (w : Word) (s : State) :
    raiseFault c p w s = faulted c p w s := by
  cases c <;> rfl

theorem takeWord_of_reserved (hd : decode w = .reserved) :
    takeWord p w s = .next (raiseFault .reservedNonzero p w (onPort p s)) := by
  rw [takeWord, hd]

theorem takeWord_of_firstCause (h : firstCause w p s = some c) :
    takeWord p w s = .next (faulted c p w (onPort p s)) := by
  rw [← raiseFault_eq_faulted]
  cases hd : decode w with
  | illegal =>
    cases (firstCause_of_illegal hd).symm.trans h
    exact takeWord_of_illegal hd
  | reserved =>
    cases (firstCause_of_reserved hd).symm.trans h
    exact takeWord_of_reserved hd
  | instr i =>
    have hfault : commandFault i (onPort p s) = some c :=
      (firstCause_of_decode (s := onPort p s) hd).symm.trans h
    rw [takeWord_of_decode hd, exec_eq_checked, hfault, checked_some, encode_of_decode hd]
    rfl

/-- Only a command can meet no condition of R193's list; its own effect then happens. -/
theorem takeWord_of_no_cause (h : firstCause w p s = none) :
    ∃ i, decode w = .instr i ∧ takeWord p w s = exec i (onPort p s) ∧
      exec i (onPort p s) = commandBody i (onPort p s) := by
  cases hd : decode w with
  | illegal => cases (firstCause_of_illegal hd).symm.trans h
  | reserved => cases (firstCause_of_reserved hd).symm.trans h
  | instr i =>
    have hfault : commandFault i (onPort p s) = none :=
      (firstCause_of_decode (s := onPort p s) hd).symm.trans h
    exact ⟨i, rfl, takeWord_of_decode hd, by rw [exec_eq_checked, hfault, checked_none]⟩

theorem takeWord_keeps_fault_fields (h : firstCause w p s = none)
    (ht : takeWord p w s = .next t) : sameFaultFields t s := by
  obtain ⟨i, -, hexec, hbody⟩ := takeWord_of_no_cause h
  rw [hexec, hbody] at ht
  exact commandBody_keeps_fault_fields (s := onPort p s) ht

/-- A word whose taking raises FAULT is the one that FAULT_CMD then holds. -/
theorem takeWord_fault_rises (hf : s.fault = false) (ht : takeWord p w s = .next t)
    (hft : t.fault = true) : ∃ c, t = faulted c p w (onPort p s) := by
  cases hc : firstCause w p s with
  | some c =>
    rw [takeWord_of_firstCause hc] at ht
    exact ⟨c, (Host.Outcome.next.inj ht).symm⟩
  | none =>
    obtain ⟨hkeep, -⟩ := takeWord_keeps_fault_fields hc ht
    simp [hkeep, hf] at hft

end

/-- Settles O6: by what the word decodes to, and for a command by its own checks. -/
theorem wordTakesFirstMatchingFault : Obligations.WordTakesFirstMatchingFault := by
  intro w p s
  refine ⟨fun c h => takeWord_of_firstCause h,
    fun h => ⟨?_, fun t => takeWord_keeps_fault_fields h⟩⟩
  obtain ⟨i, hd, hexec, -⟩ := takeWord_of_no_cause h
  exact ⟨i, hd, hexec⟩

/-- Settles O7: the step is the agent's turn, the turn takes the word, and the word takes its fault;
no condition of R193 depends on what the turn has consumed by then. -/
theorem faultEntryChangesOnlyFaultFields : Obligations.FaultEntryChangesOnlyFaultFields := by
  refine ⟨fun s w ws ts c hts hf hp hw hc => ?_, fun s w ts c hts hf hp hw hc => ?_⟩
  · rw [step_generator hts, generatorTurn_take (s := { s with turns := ts }) hf hp hw,
      takeWord_of_firstCause (s := { s with turns := ts, cmdFifo := ws }) hc]
    rfl
  · rw [step_entropy hts, entropyTurn_take (s := { s with turns := ts }) hf hp hw,
      takeWord_of_firstCause (s := { s with turns := ts, entReg := none }) hc]
    rfl

/-! ## A halted core (R196, R198) -/

section
variable {s t : State}

theorem generatorTurn_of_fault (hf : s.fault = true) : generatorTurn s = .next s := if_pos hf

theorem entropyTurn_of_fault (hf : s.fault = true) : entropyTurn s = .next s := if_pos hf

/-- The host's column of R25 holds no fault field. -/
theorem hostTurn_keeps_fault_fields {k : Nat} (h : hostTurn k s = .next t) :
    sameFaultFields t s := by
  rw [hostTurn_frame h]
  exact sameFaultFields_refl s

end

/-- Settles O9: both agents test FAULT first. -/
theorem haltedAgentsDoNothing : Obligations.HaltedAgentsDoNothing := by
  rintro s t ts hf (rfl | rfl) hts
  · exact (step_generator hts).trans (generatorTurn_of_fault hf)
  · exact (step_entropy hts).trans (entropyTurn_of_fault hf)

theorem step_keeps_fault_fields {s t : State} (hf : s.fault = true) (hu : currentTurn s ≠ .por)
    (h : step s = .next t) : sameFaultFields t (turnTaken s) := by
  have hhalted : (turnTaken s).fault = true := (turnTaken_fault s).trans hf
  rcases step_cases h with ⟨-, ho⟩ | ⟨-, ho⟩ | ⟨k, -, ho⟩ | ⟨hpor, -⟩
  · cases (generatorTurn_of_fault hhalted).symm.trans ho
    exact sameFaultFields_refl _
  · cases (entropyTurn_of_fault hhalted).symm.trans ho
    exact sameFaultFields_refl _
  · exact hostTurn_keeps_fault_fields ho
  · exact absurd hpor hu

/-- Settles O10: a halted core's steps keep the four fields, a write to CMD or ENT is discarded by the
first branch of each, and power-on reset gives the fields their values of R40. -/
theorem onlyPowerOnResetClearsAFault : Obligations.OnlyPowerOnResetClearsAFault := by
  refine ⟨fun s t hf hu h => ?_, fun s k ts w hf h => ?_, fun s t hu h => ?_⟩
  · simpa [sameFaultFields, hf] using step_keeps_fault_fields hf hu h
  · rcases h with h | h
    · exact (cmdWriteAppendsOrHolds s k ts w h).1 hf
    · exact (entWriteFillsOrHolds s k ts w h).1 hf
  · rw [step_por_eq hu h]
    exact ⟨rfl, rfl, rfl, rfl⟩

/-! ## The steps that raise FAULT (R190) -/

section
variable {s t : State} (hf : s.fault = false) (hft : t.fault = true)
include hf hft

theorem generatorTurn_fault_rises (h : generatorTurn s = .next t) :
    ∃ c w ws, s.genPhase = .idle ∧ s.cmdFifo = w :: ws ∧
      t = faulted c .cmd w (onPort .cmd { s with cmdFifo := ws }) := by
  rcases generatorTurn_cases h with ho | ⟨w, ws, -, hp, hw, ho⟩ | ⟨_, -, -, ho⟩ |
    ⟨_, _, _, -, -, -, ho⟩ | ⟨_, _, -, -, ho⟩
  case inr.inl =>
    obtain ⟨c, rfl⟩ := takeWord_fault_rises (s := { s with cmdFifo := ws }) hf ho hft
    exact ⟨c, w, ws, hp, hw, rfl⟩
  all_goals
    cases ho
    cases hf.symm.trans hft

theorem entropyTurn_fault_rises (h : entropyTurn s = .next t) :
    ∃ c w, s.entPhase = .idle ∧ s.entReg = some w ∧
      t = faulted c .ent w (onPort .ent { s with entReg := none }) := by
  rcases entropyTurn_cases h with ho | ⟨w, -, hp, hw, ho⟩ | ⟨_, _, _, -, -, ho⟩
  case inr.inl =>
    obtain ⟨c, rfl⟩ := takeWord_fault_rises (s := { s with entReg := none }) hf ho hft
    exact ⟨c, w, hp, hw, rfl⟩
  all_goals
    cases ho
    cases hf.symm.trans hft

end

/-- Settles O11: by whose turn the step is; the host's turn keeps FAULT and power-on reset clears it. -/
theorem onlyTakingAWordCanFault : Obligations.OnlyTakingAWordCanFault := by
  intro s t hf h hft
  rw [← turnTaken_fault s] at hf
  rw [← turnTaken_genPhase s, ← turnTaken_cmdFifo s, ← turnTaken_entPhase s, ← turnTaken_entReg s]
  rcases step_cases h with ⟨hu, ho⟩ | ⟨hu, ho⟩ | ⟨k, -, ho⟩ | ⟨-, ho⟩
  · obtain ⟨c, w, ws, hp, hw, rfl⟩ := generatorTurn_fault_rises hf hft ho
    exact .inl ⟨w, ws, hu, hp, hw, rfl, rfl, rfl, hp⟩
  · obtain ⟨c, w, hp, hw, rfl⟩ := entropyTurn_fault_rises hf hft ho
    exact .inr ⟨w, hu, hp, hw, rfl, rfl, rfl, hp⟩
  · obtain ⟨hkeep, -⟩ := hostTurn_keeps_fault_fields ho
    cases hf.symm.trans (hkeep.symm.trans hft)
  · cases ho
    cases hft

end Sys2Proof.Machine

namespace Sys2Proof.Machine

open Sys2Proof.Spec

/-! ## Power-on reset (70_reset_and_hazards.md R220, R221; 10_state.md R40) -/

theorem statusWord_powerOnReset (s : State) : statusWord (powerOnReset s) = 0 :=
  have hreset : statusWord (powerOnReset s) = statusWord State.reset := rfl
  hreset.trans (by decide)

/-- Settles O50: the turn of a power-on reset asks nothing of the state, and each field has its value
of R40. -/
theorem powerOnResetClearsTheCore : Obligations.PowerOnResetClearsTheCore := fun _ _ hts =>
  ⟨_, step_por hts, statusWord_powerOnReset _, rfl, rfl, rfl, rfl, fun _ => rfl, rfl, rfl, rfl, rfl,
    rfl, rfl, rfl, rfl, rfl, rfl⟩

/-- A power-on reset keeps of a state what log entry 10 lists, and no more. -/
theorem powerOnReset_congr {s s' : State} (hp : s.params = s'.params) (ht : s.turns = s'.turns)
    (hc : s.turnCount = s'.turnCount) (hq : s.hostQueue = s'.hostQueue)
    (hr : s.hostReads = s'.hostReads) : powerOnReset s = powerOnReset s' := by
  simp only [powerOnReset, hp, ht, hc, hq, hr]

section
variable {s s' : State} (ht : s.turns = s'.turns)
include ht

/-- Who moves depends on the turns and their count alone (R71, log entry 1). -/
theorem currentTurn_congr (hc : s.turnCount = s'.turnCount) : currentTurn s = currentTurn s' := by
  simp only [currentTurn, ht, hc]

theorem turnTaken_turns_congr : (turnTaken s).turns = (turnTaken s').turns := by
  cases h : s'.turns <;> simp [turnTaken, ht, h]

theorem turnTaken_turnCount_congr (hc : s.turnCount = s'.turnCount) :
    (turnTaken s).turnCount = (turnTaken s').turnCount := by
  cases h : s'.turns <;> simp [turnTaken, ht, hc, h]

end

/-- Settles O51: both cores move alike, and the reset keeps only what they have in common. -/
theorem nothingSurvivesPowerOnReset : Obligations.NothingSurvivesPowerOnReset := by
  intro s s' hu hp ht hc hq hr
  have hreset : powerOnReset (turnTaken s) = powerOnReset (turnTaken s') :=
    powerOnReset_congr (by simpa using hp) (turnTaken_turns_congr ht)
      (turnTaken_turnCount_congr ht hc) (by simpa using hq) (by simpa using hr)
  refine ⟨_, _, step_of_currentTurn hu,
    step_of_currentTurn ((currentTurn_congr ht hc).symm.trans hu), ?_⟩
  rw [hreset]

/-! ## R226: without an ENT word no injection begins, and RESET_OVERLAP has no cause -/

section
variable {s t : State} {w : Word} {p : Port}

/-- Check 7 of R193 needs an injection between its load and its store. -/
theorem firstCause_ne_resetOverlap (hp : s.entPhase = .idle) :
    firstCause w p s ≠ some .resetOverlap := by
  simp only [firstCause, hp, ne_eq, not_true_eq_false, and_false, if_false]
  split_ifs <;> simp

/-- A word that faults while no injection is in progress faults with another cause. -/
theorem takeWord_cause_ne_resetOverlap (hp : s.entPhase = .idle) (hf : s.fault = false)
    (ht : takeWord p w s = .next t) (hft : t.fault = true) : t.cause ≠ 7 := by
  cases hc : firstCause w p s with
  | some c =>
    rw [takeWord_of_firstCause hc] at ht
    cases ht
    cases c
    case resetOverlap => exact absurd hc (firstCause_ne_resetOverlap hp)
    all_goals simp [faulted, causeNumber]
  | none =>
    obtain ⟨hkeep, -⟩ := takeWord_keeps_fault_fields hc ht
    simp [hkeep, hf] at hft

theorem generatorTurn_cause_ne_resetOverlap (hp : s.entPhase = .idle) (hf : s.fault = false)
    (ht : generatorTurn s = .next t) (hft : t.fault = true) : t.cause ≠ 7 := by
  obtain ⟨-, w, ws, hidle, hw, -⟩ := generatorTurn_fault_rises hf hft ht
  rw [generatorTurn_take hf hidle hw] at ht
  exact takeWord_cause_ne_resetOverlap (s := { s with cmdFifo := ws }) hp hf ht hft

/-- Only the offset of R54 reaches the ENT register. -/
theorem hostReg_eq_ent {params : Params} {off : Nat} (h : hostReg params off = .ent) :
    off = entOffset := by
  unfold hostReg at h
  by_contra hne
  simp only [hne, if_false] at h
  split_ifs at h

theorem hostRead_entReg {r : HostReg} {v : Option Word} (h : hostRead r s = .done t v) :
    t.entReg = s.entReg := by
  cases r
  case outData =>
    change readOutData s = _ at h
    cases hout : s.outFifo with
    | nil => cases (readOutData_nil hout).symm.trans h
    | cons b rest => cases (readOutData_cons hout).symm.trans h; rfl
  all_goals cases h; rfl

/-- Of the writes only the one to ENT fills the ENT register. -/
theorem hostWrite_entReg {r : HostReg} {v : Option Word} (hr : r ≠ .ent)
    (h : hostWrite r w s = .done t v) : t.entReg = s.entReg := by
  cases r
  case ent => exact absurd rfl hr
  case cmd =>
    change writeCmd w s = _ at h
    unfold writeCmd at h
    split_ifs at h <;> cases h <;> rfl
  all_goals cases h; rfl

/-- An access that is no write of ENT leaves the ENT register (R54, R58). -/
theorem hostAccess_entReg {a : HostAccess} {v : Option Word}
    (hno : ∀ w, a.op = .write w → a.addr ≠ s.params.hostBase + entOffset)
    (h : hostAccess a s = .done t v) : t.entReg = s.entReg := by
  unfold hostAccess at h
  split at h
  · cases h
  next hbase =>
  split at h
  · cases h
  split at h
  · exact hostRead_entReg h
  · next w hw =>
    refine hostWrite_entReg (fun hreg => hno w hw ?_) h
    have hoff := hostReg_eq_ent hreg
    omega

theorem hostTurn_keeps_noEntropyWork {k : Nat} (hs : noEntropyWork s)
    (h : hostTurn k s = .next t) : noEntropyWork t := by
  obtain ⟨hreg, hphase, hqueue⟩ := hs
  rcases hostTurn_cases h with ho | ⟨a, u, v, hk, ha, ho⟩ | ⟨_, _, -, -, ho⟩ <;> cases ho
  · exact ⟨hreg, hphase, hqueue⟩
  · have hu : u.entReg = s.entReg := by
      rcases hostAct_done_cases ha with ⟨_, -, -, rfl, -⟩ | ⟨c, rfl, hc⟩
      · rfl
      · exact hostAccess_entReg (hqueue c (List.mem_of_getElem? hk)) hc
    refine ⟨hu.trans hreg, (congrArg State.entPhase (hostAct_frame ha)).trans hphase,
      fun c hc => ?_⟩
    rw [← hostAct_params ha] at hqueue
    exact hqueue c (List.mem_of_mem_eraseIdx hc)

theorem entropyTurn_of_noEntropyWork (hs : noEntropyWork s) : entropyTurn s = .next s := by
  obtain ⟨hreg, hphase, -⟩ := hs
  exact entropyTurn_of_not_enabled (by simp [entropyEnabled, hreg, hphase, EntPhase.isLoaded])

/-- The generator agent's column of R25 holds nothing that `noEntropyWork` speaks of. -/
theorem generatorTurn_keeps_noEntropyWork (hs : noEntropyWork s) (h : generatorTurn s = .next t) :
    noEntropyWork t := by
  rw [generatorTurn_frame h]
  exact hs

theorem turnTaken_keeps_noEntropyWork (hs : noEntropyWork s) : noEntropyWork (turnTaken s) := by
  simpa [noEntropyWork] using hs

end

/-- Settles O57: by whose turn the step is; only the generator agent's can raise FAULT here, and check
7 of R193 does not apply to its word. -/
theorem exclusivityProtocolPreventsOverlap : Obligations.ExclusivityProtocolPreventsOverlap := by
  intro s t hs h
  replace hs := turnTaken_keeps_noEntropyWork hs
  rw [← turnTaken_fault s]
  rcases step_cases h with ⟨-, ho⟩ | ⟨-, ho⟩ | ⟨k, -, ho⟩ | ⟨-, ho⟩
  · have ⟨_, hphase, _⟩ := hs
    exact ⟨generatorTurn_keeps_noEntropyWork hs ho, fun hf hft =>
      generatorTurn_cause_ne_resetOverlap hphase hf ho hft⟩
  · cases (entropyTurn_of_noEntropyWork hs).symm.trans ho
    exact ⟨hs, fun hf hft => absurd (hf.symm.trans hft) (by decide)⟩
  · obtain ⟨hkeep, -⟩ := hostTurn_keeps_fault_fields ho
    exact ⟨hostTurn_keeps_noEntropyWork hs ho, fun hf hft =>
      absurd (hf.symm.trans (hkeep.symm.trans hft)) (by decide)⟩
  · cases ho
    obtain ⟨-, -, hqueue⟩ := hs
    exact ⟨⟨rfl, rfl, hqueue⟩, fun _ hft => absurd hft Bool.false_ne_true⟩

/-! ## Runs in which the host is stuck (R229, R230, R233) -/

/-- An ENT word never stops the model: on that port the key commands fault before they read a key. -/
theorem exec_ent_isNext {s : State} (i : Instr) (hp : s.port = .ent) : ∃ t, exec i s = .next t := by
  rcases exec_cases (rfl : exec i s = _) with ⟨_, ho⟩ | ⟨_, _, -, -, -, -, -, -, ho⟩ |
    ⟨_, -, hcmd, -⟩ | ⟨-, -, -, ho⟩ | ⟨_, -, -, -, -, ho⟩ | ⟨_, -, -, -, ho⟩ | ⟨_, -, -, -, ho⟩
  case inr.inr.inl => simp [hp] at hcmd
  all_goals exact ⟨_, ho⟩

theorem entropyTurn_isNext (s : State) : ∃ t, entropyTurn s = .next t := by
  rcases entropyTurn_cases (rfl : entropyTurn s = _) with ho | ⟨w, -, -, -, ho⟩ |
    ⟨_, _, _, -, -, ho⟩
  · exact ⟨_, ho⟩
  · rw [← ho]
    rcases takeWord_cases (rfl : takeWord .ent w { s with entReg := none } = _) with
      ⟨_, -, ht⟩ | ⟨i, -, he⟩
    · exact ⟨_, ht⟩
    · rw [← he]
      exact exec_ent_isNext i rfl
  · exact ⟨_, ho⟩

/-- Of what enables the generator agent the entropy agent writes only FAULT, and only from 0 to 1. -/
theorem entropyTurn_keeps_generator_disabled {s t : State} (h : entropyTurn s = .next t)
    (hoff : generatorEnabled s = false) : generatorEnabled t = false := by
  cases hf : s.fault with
  | true =>
    cases (entropyTurn_of_fault hf).symm.trans h
    exact hoff
  | false =>
    rw [entropyTurn_frame h]
    unfold generatorEnabled at hoff ⊢
    rw [hf] at hoff
    exact Bool.and_eq_false_imp.2 fun _ => hoff

/-- The action `a`, first in the host's list, holds, and only the generator agent could lift that but
has no enabled step: R229's wait for GEN_BUSY = 0, or R230's read of OUT_DATA. -/
def hostStuckOn (a : HostAction) (s : State) : Prop :=
  generatorEnabled s = false ∧ s.hostQueue[0]? = some a ∧
    ((a = .wait .gen ∧ genBusy s = true) ∨
      (a = .access (readAt s.params outDataOffset) ∧ s.outFifo = []))

section
variable {s : State} {a : HostAction}

theorem hostStuckOn_turns (ts : List Turn) (h : hostStuckOn a s) :
    hostStuckOn a { s with turns := ts } := h

theorem hostAct_of_hostStuckOn (h : hostStuckOn a s) : hostAct a s = .hold := by
  obtain ⟨-, -, ⟨rfl, hbusy⟩ | ⟨rfl, hout⟩⟩ := h
  · exact if_pos hbusy
  · exact (hostAccess_at s .read rfl).trans (readOutData_nil hout)

theorem not_quiescent_of_hostStuckOn (h : hostStuckOn a s) : quiescent s = false := by
  have hheld : hostHeld s = true := by
    have ⟨_, hq, _⟩ := h
    exact hostHeld_iff.2 ⟨a, List.mem_of_getElem? hq, by rw [hostAct_of_hostStuckOn h]; rfl⟩
  simp [quiescent, hheld]

theorem not_atEnd_of_hostStuckOn (h : hostStuckOn a s) : atEnd s = false := by
  simp [atEnd, not_quiescent_of_hostStuckOn h]

theorem entropyTurn_keeps_hostStuckOn {t : State} (ht : entropyTurn s = .next t)
    (h : hostStuckOn a s) : hostStuckOn a t := by
  obtain ⟨hoff, hhold⟩ := h
  refine ⟨entropyTurn_keeps_generator_disabled ht hoff, ?_⟩
  rw [entropyTurn_frame ht]
  exact hhold

/-- Whoever moves, the host stays where it is. -/
theorem step_of_hostStuckOn {u : Turn} {ts : List Turn} (h : hostStuckOn a s)
    (hu : u = .generator ∨ u = .entropy ∨ u = .host 0) (hts : s.turns = u :: ts) :
    ∃ t, step s = .next t ∧ hostStuckOn a t ∧ t.turns = ts ∧ t.hostQueue = s.hostQueue := by
  have hs := hostStuckOn_turns ts h
  have ⟨hoff, hq, _⟩ := hs
  rcases hu with rfl | rfl | rfl
  · exact ⟨_, (step_generator hts).trans (generatorTurn_of_not_enabled hoff), hs, rfl, rfl⟩
  · obtain ⟨t, ht⟩ := entropyTurn_isNext { s with turns := ts }
    have hframe := entropyTurn_frame ht
    exact ⟨t, (step_entropy hts).trans ht, entropyTurn_keeps_hostStuckOn ht hs,
      (congrArg State.turns hframe).trans rfl, (congrArg State.hostQueue hframe).trans rfl⟩
  · exact ⟨_, step_host_hold hts hq (hostAct_of_hostStuckOn hs), hs, rfl, rfl⟩

theorem runSteps_of_hostStuckOn {order ts : List Turn} (h : hostStuckOn a s)
    (horder : ∀ u ∈ order, u = .generator ∨ u = .entropy ∨ u = .host 0)
    (hts : s.turns = order ++ ts) :
    ∃ t, runSteps order.length s = .next t ∧ t.hostQueue = s.hostQueue ∧ quiescent t = false ∧
      endState order.length s = none := by
  induction order generalizing s with
  | nil =>
    exact ⟨s, rfl, rfl, not_quiescent_of_hostStuckOn h,
      by simp [endState, not_atEnd_of_hostStuckOn h]⟩
  | cons u order ih =>
    obtain ⟨hu, horder⟩ := List.forall_mem_cons.1 horder
    obtain ⟨v, hstep, hv, hvts, hvq⟩ := step_of_hostStuckOn h hu hts
    obtain ⟨t, hrun, htq, hquiet, hend⟩ := ih hv horder hvts
    exact ⟨t, (runSteps_succ hstep).trans hrun, htq.trans hvq, hquiet,
      (endState_succ (not_atEnd_of_hostStuckOn h) hstep).trans hend⟩

/-- R229: a store that holds on a full output FIFO keeps GEN_BUSY at 1. -/
theorem hostStuckOn_of_full_outFifo {rem : BitVec 28} {b : Byte} {seen : Word} {n : Nat}
    {rest : List HostAction} (hf : s.fault = false) (hp : s.genPhase = .prgaLoaded rem b seen)
    (hd : s.params.outFifoDepth = .bounded n) (hfull : s.outFifo.length = n)
    (hq : s.hostQueue = .wait .gen :: rest) : hostStuckOn (.wait .gen) s := by
  have hoff : generatorEnabled s = false := by
    simp [generatorEnabled_prgaLoaded hf hp, hd, hfull, FifoDepth.hasRoom]
  exact ⟨hoff, by rw [hq]; rfl, .inl ⟨rfl, (genBusy_iff s).2 (.inr (by simp [hp]))⟩⟩

/-- R230: no byte comes from a generator agent that is halted, or idle with no word waiting. -/
theorem hostStuckOn_of_empty_outFifo {rest : List HostAction}
    (hno : s.fault = true ∨ (s.genPhase = .idle ∧ s.cmdFifo = [])) (hout : s.outFifo = [])
    (hq : s.hostQueue = .access (readAt s.params outDataOffset) :: rest) :
    hostStuckOn (.access (readAt s.params outDataOffset)) s := by
  have hoff : generatorEnabled s = false := by
    rcases hno with hf | ⟨hp, hw⟩
    · simp [generatorEnabled, hf]
    · simp [generatorEnabled, hp, hw]
  exact ⟨hoff, by rw [hq]; rfl, .inr ⟨rfl, hout⟩⟩

end

/-- Settles O56: a busy agent of a fault-free core has an enabled step or a held store; and no turn of
a run that R229 or R230 sticks lifts the hold of the host's first action. -/
theorem quiescentCoreIsNotBusy : Obligations.QuiescentCoreIsNotBusy := by
  refine ⟨fun s hquiet hf => ?_, fun s rest order ts hstuck horder hts => ?_⟩
  · obtain ⟨hgen, hent, -, hstore⟩ := quiescent_iff.1 hquiet
    rw [getLsbD_statusWord_two, getLsbD_statusWord_three]
    exact ⟨not_entBusy hf hent, not_genBusy hf hgen hstore⟩
  · rcases hstuck with ⟨⟨rem, b, seen, n, hf, hp, hd, hfull⟩, hq⟩ | ⟨hno, hout, hq⟩
    · exact runSteps_of_hostStuckOn (hostStuckOn_of_full_outFifo hf hp hd hfull hq) horder hts
    · exact runSteps_of_hostStuckOn (hostStuckOn_of_empty_outFifo hno hout hq) horder hts

/-! ## The end of a run (R233) -/

section
variable {s t : State} {n : Nat}

/-- Where a run ends does not depend on how many steps it may take. -/
theorem endState_unique {t' : State} {m : Nat} (h : endState m s = some t)
    (h' : endState n s = some t') : t = t' := by
  induction m generalizing s n with
  | zero =>
    rcases endState_cases h with ⟨hend, rfl⟩ | ⟨_, _, hk, -⟩
    · exact Option.some.inj ((endState_of_atEnd hend).symm.trans h')
    · cases hk
  | succ m ih =>
    rcases endState_cases h with ⟨hend, rfl⟩ | ⟨_, u, hk, hend, hstep, hu⟩
    · exact Option.some.inj ((endState_of_atEnd hend).symm.trans h')
    · cases hk
      rcases endState_cases h' with ⟨hend', -⟩ | ⟨j, u', -, -, hstep', hu'⟩
      · cases hend.symm.trans hend'
      · cases hstep.symm.trans hstep'
        exact ih hu hu'

/-- The end state is the first state of the run at which it can end. -/
theorem endState_first (h : endState n s = some t) :
    atEnd t = true ∧ ∃ m, m ≤ n ∧ runSteps m s = .next t ∧
      ∀ l u, l < m → runSteps l s = .next u → atEnd u = false := by
  induction n generalizing s with
  | zero =>
    rcases endState_cases h with ⟨hend, rfl⟩ | ⟨_, _, hk, -⟩
    · exact ⟨hend, 0, Nat.le_refl 0, rfl, fun l u hl => absurd hl l.not_lt_zero⟩
    · cases hk
  | succ n ih =>
    rcases endState_cases h with ⟨hend, rfl⟩ | ⟨_, v, hk, hend, hstep, hv⟩
    · exact ⟨hend, 0, Nat.zero_le _, rfl, fun l u hl => absurd hl l.not_lt_zero⟩
    · cases hk
      obtain ⟨ht, m, hm, hrun, hbefore⟩ := ih hv
      refine ⟨ht, m + 1, Nat.succ_le_succ hm, (runSteps_succ hstep).trans hrun, fun l u hl hu => ?_⟩
      cases l with
      | zero => cases hu; exact hend
      | succ l =>
        exact hbefore l u (Nat.lt_of_succ_lt_succ hl) ((runSteps_succ hstep).symm.trans hu)

theorem not_atEnd_iff : atEnd s = false ↔ s.hostQueue ≠ [] ∨ quiescent s = false := by
  rw [← Bool.not_eq_true, atEnd_iff]
  simp [Classical.or_iff_not_imp_left]

/-- At the end of a run nobody but a power-on reset has a step to take. -/
theorem step_of_atEnd {u : Turn} {ts : List Turn} (hend : atEnd s = true) (hu : u ≠ .por)
    (hts : s.turns = u :: ts) : step s = .next { s with turns := ts } := by
  obtain ⟨hq, hquiet⟩ := atEnd_iff.1 hend
  obtain ⟨hgen, hent, -, -⟩ := quiescent_iff.1 hquiet
  cases u with
  | generator =>
    exact (step_generator hts).trans (generatorTurn_of_not_enabled (s := { s with turns := ts }) hgen)
  | entropy =>
    exact (step_entropy hts).trans (entropyTurn_of_not_enabled (s := { s with turns := ts }) hent)
  | host k => simp [step_host hts, hostTurn, hq]
  | por => exact absurd rfl hu

end

/-! ### What the host reads then -/

/-- `s` with the actions `q` presented, and as many turns of the host, in order, next. -/
def hostActsInOrder (q : List HostAction) (ts : List Turn) (s : State) : State :=
  { s with hostQueue := q, turns := List.replicate q.length (.host 0) ++ ts }

section
variable {s t : State} {ts : List Turn}

/-- A read that the host presents first and that completes. -/
theorem step_hostActsInOrder_read {q : List HostAction} {off : Nat} {v : Word}
    (hal : off % 4 = 0)
    (ha : ∀ q ts, hostRead (hostReg s.params off) { s with hostQueue := q, turns := ts } =
      .done { t with hostQueue := q, turns := ts } (some v)) :
    step (hostActsInOrder (.access (readAt s.params off) :: q) ts s) =
      .next (hostActsInOrder q ts { t with hostReads := s.hostReads ++ [v] }) :=
  step_presents_done (s := hostActsInOrder (.access (readAt s.params off) :: q) ts s) ⟨rfl, rfl⟩ hal
    (ha _ _)

/-- As many reads of OUT_DATA as there are bytes return all of them, in order (R59). -/
theorem runSteps_readOutData (hq : s.hostQueue = []) :
    runSteps s.outFifo.length (hostActsInOrder
        (List.replicate s.outFifo.length (.access (readAt s.params outDataOffset))) ts s) =
      .next { s with
        turns := ts, outFifo := []
        hostReads := s.hostReads ++ s.outFifo.map fun b => b.setWidth 32 } := by
  generalize hout : s.outFifo = out
  induction out generalizing s with
  | nil => simp [hostActsInOrder, hq, hout]
  | cons b rest ih =>
    have hread := step_hostActsInOrder_read (s := s) (t := { s with outFifo := rest }) (ts := ts)
      (q := List.replicate rest.length (.access (readAt s.params outDataOffset)))
      (off := outDataOffset) (v := b.setWidth 32) rfl
      fun q ts => readOutData_cons (s := { s with hostQueue := q, turns := ts }) hout
    refine (runSteps_succ hread).trans ?_
    refine (ih (s := { s with outFifo := rest, hostReads := s.hostReads ++ [b.setWidth 32] }) hq
      rfl).trans ?_
    simp

theorem length_endReads (p : Params) (n : Nat) : (endReads p n).length = 2 + n := by
  simp only [endReads, List.length_cons, List.length_replicate]
  omega

/-- R233: the host reads STATUS, FAULT_CMD and the bytes of the output FIFO. -/
theorem runSteps_endReads (hq : s.hostQueue = []) :
    runSteps (2 + s.outFifo.length)
        (hostActsInOrder (endReads s.params s.outFifo.length) ts s) =
      .next { s with
        turns := ts, outFifo := []
        hostReads := s.hostReads ++ (endView s).status :: (endView s).faultCmd ::
          (endView s).bytes.map fun b => b.setWidth 32 } := by
  have hstatus := step_hostActsInOrder_read (s := s) (t := s) (ts := ts) (off := statusOffset)
    (v := statusWord s) (q := (endReads s.params s.outFifo.length).tail) rfl fun _ _ => rfl
  have hfaultCmd := step_hostActsInOrder_read (off := faultCmdOffset) (ts := ts) (v := s.faultCmd)
    (s := { s with hostReads := s.hostReads ++ [statusWord s] })
    (t := { s with hostReads := s.hostReads ++ [statusWord s] })
    (q := (endReads s.params s.outFifo.length).tail.tail) rfl fun _ _ => rfl
  refine (runSteps_add (runSteps_two hstatus hfaultCmd)).trans ?_
  refine (runSteps_readOutData
    (s := { s with hostReads := s.hostReads ++ [statusWord s] ++ [s.faultCmd] }) hq).trans ?_
  simp [endView]

end

/-- Settles O60: a run ends at its first state that can end it, where nobody has a step to take; what
the host then reads are the registers and the bytes of that state. -/
theorem endStateIsUniqueAndLasting : Obligations.EndStateIsUniqueAndLasting := by
  refine ⟨fun _ _ _ _ _ => endState_unique, fun s t n h => ?_⟩
  obtain ⟨hend, m, hm, hrun, hbefore⟩ := endState_first h
  obtain ⟨hq, hquiet⟩ := atEnd_iff.1 hend
  refine ⟨hq, hquiet, ⟨m, hm, hrun, fun l u hl hu => not_atEnd_iff.1 (hbefore l u hl hu)⟩,
    fun u ts hu hts => step_of_atEnd hend hu hts, fun ts => ?_⟩
  have hreads := runSteps_endReads (ts := ts) hq
  rwa [hostActsInOrder, length_endReads] at hreads

end Sys2Proof.Machine
